-- ==== Sys2Proof/Word.lean ====
section
/-! DEFINITION. The word types of the machine: bytes, 12-bit addresses, 16-bit opcodes and 4-bit register
numbers (spec/00_scope.md R7, R9; spec/30_encoding.md R71). All values are unsigned (R10). -/

namespace Sys2Proof

/-- A register, timer or memory byte, 0..255 (R7, R22). -/
abbrev Byte := BitVec 8

/-- A 12-bit address; also the type of pc, I and the stack entries. Its addition is the reduction modulo 4096
of R9 and R52. -/
abbrev Addr := BitVec 12

/-- A 16-bit opcode (R70). -/
abbrev Word := BitVec 16

/-- The number of a general register, V0 to VF (R22). -/
abbrev RegIdx := BitVec 4

/-- The number of a logical key, 0x0 to 0xF (R29). -/
abbrev KeyIdx := BitVec 4

/-- The 16-bit word whose bits 15..8 are `hi` and whose bits 7..0 are `lo`: the concatenation of R10. -/
def wordOfBytes (hi lo : Byte) : Word := hi ++ lo

end Sys2Proof
end

