-- ==== Sys2Proof/Machine/Flags.lean ====
section
/-! DEFINITION. Every flag computation of the machine (spec/10_state.md R34). VF is the only flag; each function
answers the truth of the flag from the operands as they were before the instruction (R23), over the exact integers.
The collision flag of Dxyn is computed where the pixels are (Ops.lean). -/

namespace Sys2Proof.Machine

/-- The byte a flag writes to VF: 1 or 0 (R34). -/
def flagByte (c : Bool) : Byte := if c then 1 else 0

/-- 8xy4: 1 iff the unsigned sum exceeds 255 (R126). -/
def carryFlag (a b : Byte) : Bool := decide (a.toNat + b.toNat > 255)

/-- 8xy5 and 8xy7: 1 iff there is no borrow in `a - b`, that is a ≥ b (R127, R129). -/
def noBorrowFlag (a b : Byte) : Bool := decide (a.toNat ≥ b.toNat)

/-- 8xy6: the low bit before the shift (R128). -/
def lowBitFlag (a : Byte) : Bool := a.getLsbD 0

/-- 8xyE: the high bit before the shift (R130). -/
def highBitFlag (a : Byte) : Bool := a.getLsbD 7

end Sys2Proof.Machine
end

