-- ==== Sys2Proof/Config.lean ====
section
/-! DEFINITION. What an implementation fixes: the fixed parameters of spec/00_scope.md R7, the parameters of R8
that a model takes as arguments, each with the spec's default, and the one free value of the machine, the
random byte of Cxnn (spec/42_alu.md R133). -/

namespace Sys2Proof

namespace Config

/-- `MEM_SIZE` (R7). -/
def memSize : Nat := 4096

/-- `FONT_LEN`; the fontset stands at `FONT_BASE = 0x000` (R7). -/
def fontLen : Nat := 80

/-- `ROM_BASE` (R7). -/
def romBase : Addr := 0x200#12

/-- `ROM_MAX` (R7). -/
def romMax : Nat := 3584

/-- `PC_RESET` (R7). -/
def pcReset : Addr := 0x200#12

/-- THE FREE VALUE of the machine: the host's random byte, `randomByte n` being the n-th one a Cxnn takes
(R133, R217: "a free input of that cycle (any of 256 values) with no law between draws"). It has no body, so no
proof can see what it is. DESIGN CHOICE, log 4; safe. One sequence serves every instance and every run, so that two
equal counters draw equal bytes, which the spec does not say: DESIGN CHOICE, log 34; unsafe for a claim that compares two
instances or runs. -/
opaque randomByte : Nat → Byte

end Config

/-- `KEY_INDEX_POLICY` of R8: what Ex9E and ExA1 do when V[x] ≥ 16 (R160, R161). -/
inductive KeyIndexPolicy where
  /-- raise KeyIndexOutOfRange -/
  | fault
  /-- use the low four bits of V[x] -/
  | mask
  /-- the key counts as not pressed -/
  | notPressed
  deriving DecidableEq, Repr

/-- The parameters of R8, fixed for the life of an instance (R21). -/
structure Params where
  /-- `STACK_DEPTH`; `none` is `UNBOUNDED`. -/
  stackDepth : Option Nat
  /-- `LENIENT_UNKNOWN`. -/
  lenientUnknown : Bool
  /-- `KEY_INDEX_POLICY`. -/
  keyIndexPolicy : KeyIndexPolicy
  /-- `FONTSET`, the 80 glyph bytes of 0x000 to 0x04F. -/
  fontset : Vector Byte 80
  deriving DecidableEq, Repr

namespace Config

/-- The glyphs of the digits 0 to 7: the first half of the default `FONTSET` (R242; PRESUMED, log 8). -/
def defaultFontLow : Vector Byte 40 := #v[
  0xF0, 0x90, 0x90, 0x90, 0xF0,  0x20, 0x60, 0x20, 0x20, 0x70,
  0xF0, 0x10, 0xF0, 0x80, 0xF0,  0xF0, 0x10, 0xF0, 0x10, 0xF0,
  0x90, 0x90, 0xF0, 0x10, 0x10,  0xF0, 0x80, 0xF0, 0x10, 0xF0,
  0xF0, 0x80, 0xF0, 0x90, 0xF0,  0xF0, 0x10, 0x20, 0x40, 0x40]

/-- The glyphs of the digits 8 to F: the second half of the default `FONTSET` (R242; PRESUMED, log 8). -/
def defaultFontHigh : Vector Byte 40 := #v[
  0xF0, 0x90, 0xF0, 0x90, 0xF0,  0xF0, 0x90, 0xF0, 0x10, 0xF0,
  0xF0, 0x90, 0xF0, 0x90, 0x90,  0xE0, 0x90, 0xE0, 0x90, 0xE0,
  0xF0, 0x80, 0x80, 0x80, 0xF0,  0xE0, 0x90, 0x90, 0x90, 0xE0,
  0xF0, 0x80, 0xF0, 0x80, 0xF0,  0xF0, 0x80, 0xF0, 0x80, 0x80]

/-- The default `FONTSET` (R242; PRESUMED, log 8). -/
def defaultFont : Vector Byte 80 := defaultFontLow ++ defaultFontHigh

/-- The defaults of R8. -/
def defaults : Params :=
  { stackDepth := some 16, lenientUnknown := false, keyIndexPolicy := .fault, fontset := defaultFont }

end Config

end Sys2Proof
end

