-- ==== Sys2Proof/Machine/State.lean ====
section
/-! DEFINITION. The state of one instance (spec/10_state.md R20), its faults (spec/60_exceptions.md R200), and the
state after construction, the only reset (spec/10_state.md R35, spec/70_reset_and_hazards.md R240). -/

namespace Sys2Proof.Machine

/-- The faults of R200. A faulting `cycle()` is a NEXT state in this model: it sets the fault latch (log 2), so no
step answers `Host.Outcome.fault`; the codes stand in the latch's record and in `load_rom`'s result. -/
inductive Fault where
  /-- Code 1: raised by RET with an empty call stack (R201). Safe: the spec's own fault, latched. -/
  | stackUnderflow
  /-- Code 2: raised by CALL with `STACK_DEPTH` entries on the stack (R202). Safe: latched, and never raised when
  the parameter is UNBOUNDED. -/
  | stackOverflow
  /-- Code 3: raised by the decode of a word of no row, in strict mode (R203). Safe: latched. -/
  | unknownOpcode
  /-- Code 4: raised by Ex9E and ExA1 with V[x] ≥ 16 under the policy `fault` (R204). Safe: latched. -/
  | keyIndexOutOfRange
  /-- Code 5: answered by `load_rom` for a ROM longer than 3584 bytes (R243), never by a cycle. Safe: nothing is
  written. -/
  | invalidRom
  deriving DecidableEq, Repr

/-- What a step can refuse. -/
inductive Refusal where
  /-- An instruction without a meaning, raised by `exec`'s arm for it; no arm does. Safe: the step stops. -/
  | notModelled (mnemonic : String)
  deriving DecidableEq, Repr

/-- The record of the fault latch: the code, the address of the faulting instruction and its opcode (R31). -/
structure FaultRecord where
  code : Fault
  pc : Addr
  opcode : Word
  deriving DecidableEq, Repr

/-- Memory as a sparse list of the bytes that differ from their construction contents, addresses strictly rising
(`Memory.wf` in Ops.lean). What an unlisted address reads as is `Memory.constructed` there. -/
abbrev Memory := List Host.Cell

/-- The framebuffer: 32 rows of 64 one-bit pixels; bit `x` of row `y` is the pixel of column `x` (R30; log 30). -/
abbrev Framebuffer := Vector (BitVec 64) 32

/-- The state of one instance (R20), with the parameters of the instance (R21) and the model's own counter of
random draws. -/
structure State where
  /-- V0 to VF (R22); VF is also the flag (R23). -/
  v : Vector Byte 16
  /-- The index register (R24). -/
  I : Addr
  /-- The program counter (R25). -/
  pc : Addr
  /-- The call stack, the last entry on top (R27). -/
  stack : List Addr
  /-- The delay timer DT (R28). -/
  dt : Byte
  /-- The sound timer ST (R28). -/
  st : Byte
  /-- The key vector: bit k is set when key k is pressed (R29). -/
  keys : BitVec 16
  /-- The framebuffer (R30). -/
  fb : Framebuffer
  /-- The awaiting-key sub-state (R32). -/
  wait : Option RegIdx
  /-- The fault latch (R31). -/
  fault : Option FaultRecord
  /-- The memory (R50). -/
  mem : Memory
  /-- The parameters of R8, fixed for the instance's life (R21); DESIGN CHOICE, log 3. -/
  params : Params
  /-- The MODEL's own field: how many random bytes Cxnn has taken (R133; log 4, log 34). -/
  draws : Nat
  deriving DecidableEq, Repr

/-- The construction of an instance (R35, R240): the fontset is the construction contents of 0x000 to 0x04F
(R241), every other byte is 0x00, so no byte is listed. `draws` is 0 by DESIGN CHOICE (log 5). -/
def State.construct (p : Params) : State :=
  { v := Vector.replicate 16 0
    I := 0
    pc := Config.pcReset
    stack := []
    dt := 0
    st := 0
    keys := 0
    fb := Vector.replicate 32 0
    wait := none
    fault := none
    mem := []
    params := p
    draws := 0 }

/-- The machine right after reset: an instance constructed with the default parameters of R8. -/
def State.reset : State := State.construct Config.defaults

end Sys2Proof.Machine
end

