-- ==== Sys2Proof/Machine/Ops.lean ====
section
/-! DEFINITION. The named operations on memory, registers, pc, stack and framebuffer, and the taking of a fault,
each once (spec/00_scope.md R11, R12). Every meaning is written over them. -/

namespace Sys2Proof.Machine

/-! ## Memory (spec/20_memory.md) -/

/-- The construction contents: the fontset at 0x000 to 0x04F, 0x00 elsewhere (R35, R241). This is what an unlisted
address reads as (log 7). -/
def Memory.constructed (font : Vector Byte 80) (a : Nat) : Byte :=
  if h : a < 80 then font[a] else 0

/-- The byte at `a`: the listed one, else the construction contents. -/
def Memory.read (font : Vector Byte 80) : Memory → Nat → Byte
  | [], a => Memory.constructed font a
  | c :: rest, a => if c.1 = a then c.2 else Memory.read font rest a

/-- List `b` at `a`, in the rising order. -/
def Memory.put (a : Nat) (b : Byte) : Memory → Memory
  | [] => [(a, b)]
  | c :: rest =>
    if a < c.1 then (a, b) :: c :: rest
    else if a = c.1 then (a, b) :: rest
    else c :: Memory.put a b rest

/-- Take every entry of `a` out; a canonical memory has at most one. -/
def Memory.unlist (a : Nat) : Memory → Memory
  | [] => []
  | c :: rest => if a = c.1 then Memory.unlist a rest else c :: Memory.unlist a rest

/-- Store `b` at `a`, keeping the canonical form: a byte that equals the construction contents is not listed. -/
def Memory.write (font : Vector Byte 80) (m : Memory) (a : Nat) (b : Byte) : Memory :=
  if b = Memory.constructed font a then Memory.unlist a m else Memory.put a b m

/-- The canonical form: addresses strictly rising and below 4096, no entry equal to the construction contents. -/
abbrev Memory.wf (font : Vector Byte 80) (m : Memory) : Prop :=
  m.Pairwise (fun c d => c.1 < d.1) ∧
    ∀ c ∈ m, c.1 < Config.memSize ∧ c.2 ≠ Memory.constructed font c.1

/-- `MemRead(a, 1)` (R12). The 12-bit address is already reduced modulo 4096 (R52). -/
def State.memRead (s : State) (a : Addr) : Byte := Memory.read s.params.fontset s.mem a.toNat

/-- `MemWrite(a, 1, b)` (R12). No region is protected (R54). -/
def State.memWrite (s : State) (a : Addr) (b : Byte) : State :=
  { s with mem := Memory.write s.params.fontset s.mem a.toNat b }

/-- The one data addressing mode: `I + k` modulo 4096, `k` generated by the instruction (spec/43_index_memory.md
R146). -/
def State.indexAddr (s : State) (k : Nat) : Addr := s.I + BitVec.ofNat 12 k

/-- One-byte stores at `a`, `a + 1`, ... in ascending order (R56, R59), each address modulo 4096. -/
def State.storeBytes (s : State) (a : Addr) : List Byte → State
  | [] => s
  | b :: bs => State.storeBytes (s.memWrite a b) (a + 1) bs

/-! ## General registers (spec/10_state.md R22, R23) -/

/-- Every 4-bit register number names one of the 16 registers. -/
theorem regIdx_lt (x : RegIdx) : x.toNat < 16 := x.isLt

/-- `V[x]`. -/
def State.readV (s : State) (x : RegIdx) : Byte := s.v[x.toNat]'(regIdx_lt x)

/-- `V[x] <- b`. -/
def State.writeV (s : State) (x : RegIdx) (b : Byte) : State :=
  { s with v := s.v.set x.toNat b (regIdx_lt x) }

/-- The number of VF. -/
def regF : RegIdx := 0xF

/-- The write of an instruction that has a result and a flag: the result to V[x], then the flag to VF, last
(R23, R132). -/
def State.writeResultAndFlag (s : State) (x : RegIdx) (b : Byte) (c : Bool) : State :=
  (s.writeV x b).writeV regF (flagByte c)

/-- The loads of Fx65: `V[k] <- MemRead(I + k)` for the `count` registers from V0 up, ascending (R145). A register write
changes neither I nor memory, so each read is of the state before the loads. -/
def State.loadRegs (s : State) : Nat → State
  | 0 => s
  | k + 1 =>
    (s.loadRegs k).writeV (BitVec.ofNat 4 k) (s.memRead (s.indexAddr k))

/-- The bytes Fx55 stores: V[0] to V[x] (R144). -/
def State.regsUpTo (s : State) (x : RegIdx) : List Byte :=
  (List.range (x.toNat + 1)).map (fun k => s.readV (BitVec.ofNat 4 k))

/-! ## The program counter (spec/10_state.md R25) -/

/-- `pc <- (pc + 2) mod 4096`: the advance of a cycle (spec/40_cycle.md R92), and the extra two bytes of a taken
skip (spec/41_flow.md R114). -/
def State.advance (s : State) : State := { s with pc := s.pc + 2 }

/-- `pc <- target`. -/
def State.jump (s : State) (target : Addr) : State := { s with pc := target }

/-- A skip: `if c: pc <- pc + 2`. -/
def State.skipIf (s : State) (c : Bool) : State := if c then s.advance else s

/-! ## The call stack (spec/10_state.md R27) -/

/-- `push(a)`: append. -/
def State.push (s : State) (a : Addr) : State := { s with stack := s.stack ++ [a] }

/-- The stack without its last entry: what `pop()` leaves. -/
def State.dropTop (s : State) : State := { s with stack := s.stack.dropLast }

/-- The stack holds `STACK_DEPTH` entries; never, when that is UNBOUNDED (spec/41_flow.md R112). -/
def State.stackFull (s : State) : Bool :=
  match s.params.stackDepth with
  | none => false
  | some d => s.stack.length == d

/-! ## The other registers and the framebuffer, as a whole -/

/-- `I <- a` (R24). -/
def State.setI (s : State) (a : Addr) : State := { s with I := a }

/-- `DT <- b` (R28). -/
def State.setDt (s : State) (b : Byte) : State := { s with dt := b }

/-- `ST <- b` (R28). -/
def State.setSt (s : State) (b : Byte) : State := { s with st := b }

/-- `wait <- w` (R32). -/
def State.setWait (s : State) (w : Option RegIdx) : State := { s with wait := w }

/-- Replace the framebuffer (R30). -/
def State.setFb (s : State) (fb : Framebuffer) : State := { s with fb := fb }

/-! ## Faults (spec/40_cycle.md R97, spec/60_exceptions.md R207) -/

/-- TAKING A FAULT, the one operation for all of them: called in a cycle whose pc holds p + 2 and which has written
nothing else, it undoes the advance, so that the state is the one before the cycle with pc = p, and sets the fault
latch to (code, p, opcode). The cycle goes on to a NEXT state (log 2, log 6). There is no return from a fault (R208). -/
def State.raise (s : State) (code : Fault) (opcode : Word) : Host.Outcome State Fault Refusal :=
  .next { s with pc := s.pc - 2, fault := some { code := code, pc := s.pc - 2, opcode := opcode } }

/-! ## Fetch -/

/-- The opcode at pc: `{MemRead(pc, 1), MemRead(pc + 1, 1)}` (spec/20_memory.md R55, R57). -/
def State.fetchWord (s : State) : Word := wordOfBytes (s.memRead s.pc) (s.memRead (s.pc + 1))

/-- The state with the bytes of `w` at pc, and with the latch and the wait clear, so that the next cycle fetches
`w` (spec/40_cycle.md R90; log 29). -/
def State.placeWord (s : State) (w : Word) : State :=
  { (s.memWrite s.pc (w.extractLsb' 8 8)).memWrite (s.pc + 1) (w.extractLsb' 0 8) with wait := none, fault := none }

/-! ## Random bytes (spec/42_alu.md R133) -/

/-- The state after `RandomByte()` has supplied the byte `Config.randomByte s.draws`. -/
def State.drawn (s : State) : State := { s with draws := s.draws + 1 }

/-! ## Timers (spec/60_exceptions.md R211) -/

/-- One tick of one timer: down by one, floored at zero. -/
def tick (t : Byte) : Byte := if t.toNat > 0 then t - 1 else t

/-! ## Keys (spec/10_state.md R29) -/

/-- The lowest-indexed pressed key, if a key is pressed (spec/40_cycle.md R91). -/
def lowestKey (keys : BitVec 16) : Option Nat := (List.range 16).find? (fun k => keys.getLsbD k)

/-! ## Framebuffer (spec/10_state.md R30, spec/44_display.md R151) -/

/-- Every row number modulo 32 names a row. -/
theorem rowIdx_lt (y : Nat) : y % 32 < 32 := Nat.mod_lt _ (by decide)

/-- The pixel `fb[y mod 32][x mod 64]` (R30, R216). -/
def pixel (fb : Framebuffer) (x y : Nat) : Bool := (fb[y % 32]'(rowIdx_lt y)).getLsbD (x % 64)

/-- `fb[y mod 32][x mod 64] <- fb[y mod 32][x mod 64] ^ 1`. -/
def flipPixel (fb : Framebuffer) (x y : Nat) : Framebuffer :=
  fb.set (y % 32) (fb[y % 32]'(rowIdx_lt y) ^^^ BitVec.twoPow 64 (x % 64)) (rowIdx_lt y)

/-- The clear framebuffer (R150). -/
def clearFramebuffer : Framebuffer := Vector.replicate 32 0

/-- A framebuffer under a sprite draw, with the collision flag `c` so far (R151). -/
structure Canvas where
  fb : Framebuffer
  collision : Bool
  deriving DecidableEq, Repr

/-- One pixel of a sprite, at column `px` and row `py` modulo the grid: if the sprite's bit is set, note a
collision when the pixel is 1 and XOR it (R151). A 0 bit leaves its pixel alone. -/
def blitPixel (c : Canvas) (bit : Bool) (px py : Nat) : Canvas :=
  if bit then { fb := flipPixel c.fb px py, collision := c.collision || pixel c.fb px py } else c

/-- The sprite's bit for column `col`: bit `7 - col`, the most significant bit leftmost (R151; PRESUMED, log 18). -/
def spriteBit (b : Byte) (col : Nat) : Bool := b.getLsbD (7 - col)

/-- One sprite row: the columns 0 to 7 in order (R151). -/
def blitRow (c : Canvas) (b : Byte) (cx y : Nat) : Canvas :=
  (List.range 8).foldl (fun c col => blitPixel c (spriteBit b col) (cx + col) y) c

/-- The sprite's first `rows` rows, from memory at I, I + 1, ... (R151). -/
def blitRows (s : State) (cx cy : Nat) : Nat → Canvas
  | 0 => { fb := s.fb, collision := false }
  | row + 1 => blitRow (blitRows s cx cy row) (s.memRead (s.indexAddr row)) cx (cy + row)

end Sys2Proof.Machine
end

