-- ==== Sys2Proof/Machine/Operands.lean ====
section
/-! DEFINITION. The operand forms of the machine that are more than a register read: the computed jump target
(spec/41_flow.md R113), the glyph address (spec/43_index_memory.md R142), the decimal digits (R143) and the key index (spec/45_keypad_timer.md
R160). Register operands are `State.readV`, addresses from I are `State.indexAddr` (Ops.lean); nn and nnn are used as they are (spec/30_encoding.md R73). -/

namespace Sys2Proof.Machine

/-- A byte zero-extended to an address. -/
def zextAddr (b : Byte) : Addr := b.setWidth 12

/-- Bnnn's target `(nnn + V[0]) mod 4096` (R113). -/
def State.offsetTarget (s : State) (nnn : Addr) : Addr := nnn + zextAddr (s.readV 0)

/-- Fx29's address `V[x] * 5`, of the whole byte (R142). -/
def glyphAddr (b : Byte) : Addr := BitVec.ofNat 12 (b.toNat * 5)

/-- Fx33's digits: hundreds, tens, units (R143). -/
def decimalDigits (b : Byte) : List Byte :=
  [BitVec.ofNat 8 (b.toNat / 100), BitVec.ofNat 8 (b.toNat / 10 % 10), BitVec.ofNat 8 (b.toNat % 10)]

/-- What a key index V[x] selects (R160). -/
inductive KeyTest where
  /-- key k is tested, and this is its state -/
  | state (pressed : Bool)
  /-- the index raises KeyIndexOutOfRange -/
  | outOfRange
  deriving DecidableEq, Repr

/-- The key test of Ex9E and ExA1: an index of 16 or more goes by `KEY_INDEX_POLICY` (R160, R161; log 20). -/
def keyTest (policy : KeyIndexPolicy) (keys : BitVec 16) (k : Byte) : KeyTest :=
  if k.toNat < 16 then .state (keys.getLsbD k.toNat)
  else
    match policy with
    | .fault => .outOfRange
    | .mask => .state (keys.getLsbD (k &&& 0xF).toNat)
    | .notPressed => .state false

end Sys2Proof.Machine
end

