-- ==== Sys2Proof/Machine/Alu.lean ====
section
/-! DEFINITION. The meanings of spec/42_alu.md: register loads, the 8xyN group, the random byte. None of them raises
a fault or changes pc beyond the advance. Operands are read before anything is written, the flag is written last
(R132). -/

namespace Sys2Proof.Machine

/-- LD_IMM (R120). -/
def execLdImm (x : RegIdx) (nn : Byte) (s : State) : Host.Outcome State Fault Refusal :=
  .next (s.writeV x nn)

/-- ADD_IMM (R121): no flag (log 16). -/
def execAddImm (x : RegIdx) (nn : Byte) (s : State) : Host.Outcome State Fault Refusal :=
  .next (s.writeV x (s.readV x + nn))

/-- LD_REG (R122). -/
def execLdReg (x y : RegIdx) (s : State) : Host.Outcome State Fault Refusal :=
  .next (s.writeV x (s.readV y))

/-- OR (R123): no flag (log 16). -/
def execOr (x y : RegIdx) (s : State) : Host.Outcome State Fault Refusal :=
  .next (s.writeV x (s.readV x ||| s.readV y))

/-- AND (R124): no flag (log 16). -/
def execAnd (x y : RegIdx) (s : State) : Host.Outcome State Fault Refusal :=
  .next (s.writeV x (s.readV x &&& s.readV y))

/-- XOR (R125): no flag (log 16). -/
def execXor (x y : RegIdx) (s : State) : Host.Outcome State Fault Refusal :=
  .next (s.writeV x (s.readV x ^^^ s.readV y))

/-- ADD_REG (R126). -/
def execAddReg (x y : RegIdx) (s : State) : Host.Outcome State Fault Refusal :=
  .next (s.writeResultAndFlag x (s.readV x + s.readV y) (carryFlag (s.readV x) (s.readV y)))

/-- SUB (R127). -/
def execSub (x y : RegIdx) (s : State) : Host.Outcome State Fault Refusal :=
  .next (s.writeResultAndFlag x (s.readV x - s.readV y) (noBorrowFlag (s.readV x) (s.readV y)))

/-- SHR (R128): V[y] is not read. -/
def execShr (x _y : RegIdx) (s : State) : Host.Outcome State Fault Refusal :=
  .next (s.writeResultAndFlag x (s.readV x >>> 1) (lowBitFlag (s.readV x)))

/-- SUBN (R129). -/
def execSubn (x y : RegIdx) (s : State) : Host.Outcome State Fault Refusal :=
  .next (s.writeResultAndFlag x (s.readV y - s.readV x) (noBorrowFlag (s.readV y) (s.readV x)))

/-- SHL (R130): V[y] is not read. -/
def execShl (x _y : RegIdx) (s : State) : Host.Outcome State Fault Refusal :=
  .next (s.writeResultAndFlag x (s.readV x <<< 1) (highBitFlag (s.readV x)))

/-- RND with the random byte `r` that the host supplies (R133). -/
def State.randomInto (s : State) (x : RegIdx) (nn r : Byte) : State := s.drawn.writeV x (r &&& nn)

/-- RND (R133): the byte is the free value `Config.randomByte` at the draw counter (log 4). That two instances,
or two runs, with equal counters draw the same byte is the model's choice, not the spec's (DESIGN CHOICE, log 34). -/
def execRnd (x : RegIdx) (nn : Byte) (s : State) : Host.Outcome State Fault Refusal :=
  .next (s.randomInto x nn (Config.randomByte s.draws))

end Sys2Proof.Machine
end

