-- ==== Sys2Proof/Machine/Display.lean ====
section
/-! DEFINITION. The meanings of spec/44_display.md: the clear and the XOR-blit sprite draw. -/

namespace Sys2Proof.Machine

/-- CLS (R150). -/
def execCls (s : State) : Host.Outcome State Fault Refusal :=
  .next (s.setFb clearFramebuffer)

/-- The canvas a draw of `n` rows at (V[x], V[y]) leaves (R151; the coordinates and I are read first, log 17). -/
def State.spriteDraw (s : State) (x y : RegIdx) (n : BitVec 4) : Canvas :=
  blitRows s (s.readV x).toNat (s.readV y).toNat n.toNat

/-- DRW (R151): the framebuffer, then VF with the collision flag, last. -/
def execDrw (x y : RegIdx) (n : BitVec 4) (s : State) : Host.Outcome State Fault Refusal :=
  .next ((s.setFb (s.spriteDraw x y n).fb).writeV regF (flagByte (s.spriteDraw x y n).collision))

end Sys2Proof.Machine
end

