-- ==== Sys2Proof/Decode.lean ====
section
/-! DEFINITION. Decoding, total on any bytes and rejecting by name (spec/30_encoding.md R70 to R81), and after
it the encoder, written from the same formats (R72, R80). -/

namespace Sys2Proof

/-- Why bytes are no instruction. The groups are those of R81; `truncated` is a byte list with fewer than the two
bytes an instruction has (R70). -/
inductive DecodeError where
  /-- fewer than two bytes are left -/
  | truncated
  /-- 0x0000 to 0x0FFF other than 0x00E0 and 0x00EE (R75) -/
  | group0
  /-- 5xyN with N ≠ 0 (R77) -/
  | group5
  /-- 8xyN with N in 0x8..0xD or N = 0xF (R76) -/
  | group8
  /-- 9xyN with N ≠ 0 (R77) -/
  | group9
  /-- ExNN with NN neither 0x9E nor 0xA1 (R78) -/
  | groupE
  /-- FxNN with NN none of the nine codes of R78 -/
  | groupF
  deriving DecidableEq, Repr

/-! ## The fields of an opcode (R71) -/

/-- `o = op[15:12]`, the group. -/
def opGroup (op : Word) : BitVec 4 := op.extractLsb' 12 4

/-- `x = op[11:8]`. -/
def opX (op : Word) : RegIdx := op.extractLsb' 8 4

/-- `y = op[7:4]`. -/
def opY (op : Word) : RegIdx := op.extractLsb' 4 4

/-- `n = op[3:0]`. -/
def opN (op : Word) : BitVec 4 := op.extractLsb' 0 4

/-- `nn = op[7:0]`. -/
def opNN (op : Word) : Byte := op.extractLsb' 0 8

/-- `nnn = op[11:0]`. -/
def opNNN (op : Word) : Addr := op.extractLsb' 0 12

/-! ## Decoding -/

/-- Group 0x0: only 0x00E0 and 0x00EE are defined (R75). -/
def decodeGroup0 (nnn : Addr) : Except DecodeError Instr :=
  if nnn = 0x0E0 then .ok .cls
  else if nnn = 0x0EE then .ok .ret
  else .error .group0

/-- Group 0x8, by the function code `n` (R76; PRESUMED sub-codes, log 21). -/
def decodeGroup8 (x y : RegIdx) (n : BitVec 4) : Except DecodeError Instr :=
  match n.toNat with
  | 0x0 => .ok (.ldReg x y)
  | 0x1 => .ok (.or x y)
  | 0x2 => .ok (.and x y)
  | 0x3 => .ok (.xor x y)
  | 0x4 => .ok (.addReg x y)
  | 0x5 => .ok (.sub x y)
  | 0x6 => .ok (.shr x y)
  | 0x7 => .ok (.subn x y)
  | 0xE => .ok (.shl x y)
  | _ => .error .group8

/-- Group 0xE, by the function code `nn` (R78). -/
def decodeGroupE (x : RegIdx) (nn : Byte) : Except DecodeError Instr :=
  match nn.toNat with
  | 0x9E => .ok (.skp x)
  | 0xA1 => .ok (.sknp x)
  | _ => .error .groupE

/-- Group 0xF, by the function code `nn` (R78). -/
def decodeGroupF (x : RegIdx) (nn : Byte) : Except DecodeError Instr :=
  match nn.toNat with
  | 0x07 => .ok (.ldVxDt x)
  | 0x0A => .ok (.ldVxK x)
  | 0x15 => .ok (.ldDtVx x)
  | 0x18 => .ok (.ldStVx x)
  | 0x1E => .ok (.addIVx x)
  | 0x29 => .ok (.ldFVx x)
  | 0x33 => .ok (.ldBVx x)
  | 0x55 => .ok (.ldMemVx x)
  | 0x65 => .ok (.ldVxMem x)
  | _ => .error .groupF

/-- The decoder: by the group, and by a sub-field in groups 0x0, 0x8, 0xE and 0xF, with `n = 0` required in
groups 0x5 and 0x9 (R74 to R79; log 13). The last arm is group 0xF, the only value left. -/
def decode (op : Word) : Except DecodeError Instr :=
  match (opGroup op).toNat with
  | 0x0 => decodeGroup0 (opNNN op)
  | 0x1 => .ok (.jp (opNNN op))
  | 0x2 => .ok (.call (opNNN op))
  | 0x3 => .ok (.seImm (opX op) (opNN op))
  | 0x4 => .ok (.sneImm (opX op) (opNN op))
  | 0x5 => if opN op = 0 then .ok (.seReg (opX op) (opY op)) else .error .group5
  | 0x6 => .ok (.ldImm (opX op) (opNN op))
  | 0x7 => .ok (.addImm (opX op) (opNN op))
  | 0x8 => decodeGroup8 (opX op) (opY op) (opN op)
  | 0x9 => if opN op = 0 then .ok (.sneReg (opX op) (opY op)) else .error .group9
  | 0xA => .ok (.ldI (opNNN op))
  | 0xB => .ok (.jpV0 (opNNN op))
  | 0xC => .ok (.rnd (opX op) (opNN op))
  | 0xD => .ok (.drw (opX op) (opY op) (opN op))
  | 0xE => decodeGroupE (opX op) (opNN op)
  | _ => decodeGroupF (opX op) (opNN op)

/-- The decoder on bytes: the byte at the lower address is the high byte (R55). Answers the instruction and the
bytes after it. -/
def decodeBytes : List Byte → Except DecodeError (Instr × List Byte)
  | hi :: lo :: rest =>
    match decode (wordOfBytes hi lo) with
    | .ok i => .ok (i, rest)
    | .error e => .error e
  | _ => .error .truncated

/-! ## Encoding: the formats of R72 -/

/-- Format `NNN`. -/
def formatNNN (o : BitVec 4) (nnn : Addr) : Word := o ++ nnn

/-- Format `XNN`, and `XFN` with the function code as `nn`. -/
def formatXNN (o : BitVec 4) (x : RegIdx) (nn : Byte) : Word := o ++ (x ++ nn : BitVec 12)

/-- Formats `XY0`, `XYF` and `XYN`. -/
def formatXYN (o : BitVec 4) (x y : RegIdx) (n : BitVec 4) : Word := o ++ (x ++ (y ++ n : BitVec 8) : BitVec 12)

/-- The word of an instruction (R72, R80). -/
def encode : Instr → Word
  | .cls => 0x00E0
  | .ret => 0x00EE
  | .jp nnn => formatNNN 0x1 nnn
  | .call nnn => formatNNN 0x2 nnn
  | .seImm x nn => formatXNN 0x3 x nn
  | .sneImm x nn => formatXNN 0x4 x nn
  | .seReg x y => formatXYN 0x5 x y 0x0
  | .ldImm x nn => formatXNN 0x6 x nn
  | .addImm x nn => formatXNN 0x7 x nn
  | .ldReg x y => formatXYN 0x8 x y 0x0
  | .or x y => formatXYN 0x8 x y 0x1
  | .and x y => formatXYN 0x8 x y 0x2
  | .xor x y => formatXYN 0x8 x y 0x3
  | .addReg x y => formatXYN 0x8 x y 0x4
  | .sub x y => formatXYN 0x8 x y 0x5
  | .shr x y => formatXYN 0x8 x y 0x6
  | .subn x y => formatXYN 0x8 x y 0x7
  | .shl x y => formatXYN 0x8 x y 0xE
  | .sneReg x y => formatXYN 0x9 x y 0x0
  | .ldI nnn => formatNNN 0xA nnn
  | .jpV0 nnn => formatNNN 0xB nnn
  | .rnd x nn => formatXNN 0xC x nn
  | .drw x y n => formatXYN 0xD x y n
  | .skp x => formatXNN 0xE x 0x9E
  | .sknp x => formatXNN 0xE x 0xA1
  | .ldVxDt x => formatXNN 0xF x 0x07
  | .ldVxK x => formatXNN 0xF x 0x0A
  | .ldDtVx x => formatXNN 0xF x 0x15
  | .ldStVx x => formatXNN 0xF x 0x18
  | .addIVx x => formatXNN 0xF x 0x1E
  | .ldFVx x => formatXNN 0xF x 0x29
  | .ldBVx x => formatXNN 0xF x 0x33
  | .ldMemVx x => formatXNN 0xF x 0x55
  | .ldVxMem x => formatXNN 0xF x 0x65

/-- The bytes of an instruction, lowest address first (R55). -/
def encodeBytes (i : Instr) : List Byte :=
  [(encode i).extractLsb' 8 8, (encode i).extractLsb' 0 8]

/-! ## The opcode table's words -/

/-- The 16-bit word the opcode table numbers `w` in its first `nbits` bits; the bits above are 0. -/
def tableWord (nbits w : Nat) : Word := BitVec.ofNat 16 (w % 2 ^ nbits)

/-- The instruction the decoder reads from a word of the opcode table, laid out big-endian as memory holds it
(R55). -/
def decodeTableWord (nbits w : Nat) : Option Instr :=
  match decodeBytes [(tableWord nbits w).extractLsb' 8 8, (tableWord nbits w).extractLsb' 0 8] with
  | .ok (i, _) => some i
  | .error _ => none

end Sys2Proof
end

