-- ==== Sys2Proof/Machine/Flow.lean ====
section
/-! DEFINITION. The meanings of spec/41_flow.md: subroutines, jumps, skips. On entry of every meaning pc holds p + 2
(spec/40_cycle.md R92). -/

namespace Sys2Proof.Machine

/-- RET (R110): pop into pc; StackUnderflow on an empty stack. -/
def execRet (s : State) : Host.Outcome State Fault Refusal :=
  match s.stack.getLast? with
  | some a => .next (s.dropTop.jump a)
  | none => s.raise .stackUnderflow (encode .ret)

/-- JP (R111). -/
def execJp (nnn : Addr) (s : State) : Host.Outcome State Fault Refusal :=
  .next (s.jump nnn)

/-- CALL (R112): push the advanced pc, then jump; StackOverflow on a full stack. -/
def execCall (nnn : Addr) (s : State) : Host.Outcome State Fault Refusal :=
  if s.stackFull then s.raise .stackOverflow (encode (.call nnn))
  else .next ((s.push s.pc).jump nnn)

/-- JP_V0 (R113). -/
def execJpV0 (nnn : Addr) (s : State) : Host.Outcome State Fault Refusal :=
  .next (s.jump (s.offsetTarget nnn))

/-- SE_IMM (R114). -/
def execSeImm (x : RegIdx) (nn : Byte) (s : State) : Host.Outcome State Fault Refusal :=
  .next (s.skipIf (decide (s.readV x = nn)))

/-- SNE_IMM (R115). -/
def execSneImm (x : RegIdx) (nn : Byte) (s : State) : Host.Outcome State Fault Refusal :=
  .next (s.skipIf (decide (s.readV x ≠ nn)))

/-- SE_REG (R116). -/
def execSeReg (x y : RegIdx) (s : State) : Host.Outcome State Fault Refusal :=
  .next (s.skipIf (decide (s.readV x = s.readV y)))

/-- SNE_REG (R117). -/
def execSneReg (x y : RegIdx) (s : State) : Host.Outcome State Fault Refusal :=
  .next (s.skipIf (decide (s.readV x ≠ s.readV y)))

end Sys2Proof.Machine
end

