-- ==== Sys2Proof/Machine/IndexMemory.lean ====
section
/-! DEFINITION. The meanings of spec/43_index_memory.md: the index register, stores and loads. None raises a fault,
changes pc beyond the advance, or writes VF as a flag. -/

namespace Sys2Proof.Machine

/-- LD_I (R140). -/
def execLdI (nnn : Addr) (s : State) : Host.Outcome State Fault Refusal :=
  .next (s.setI nnn)

/-- ADD_I_VX (R141): modulo 4096, no flag (log 16). -/
def execAddIVx (x : RegIdx) (s : State) : Host.Outcome State Fault Refusal :=
  .next (s.setI (s.I + zextAddr (s.readV x)))

/-- LD_F_VX (R142). -/
def execLdFVx (x : RegIdx) (s : State) : Host.Outcome State Fault Refusal :=
  .next (s.setI (glyphAddr (s.readV x)))

/-- LD_B_VX (R143): the three digits at I, I + 1, I + 2. -/
def execLdBVx (x : RegIdx) (s : State) : Host.Outcome State Fault Refusal :=
  .next (s.storeBytes s.I (decimalDigits (s.readV x)))

/-- LD_MEM_VX (R144): V[0] to V[x] at I and up; I is unchanged (log 15). -/
def execLdMemVx (x : RegIdx) (s : State) : Host.Outcome State Fault Refusal :=
  .next (s.storeBytes s.I (s.regsUpTo x))

/-- LD_VX_MEM (R145): V[0] to V[x] from I and up; I is unchanged (log 15). -/
def execLdVxMem (x : RegIdx) (s : State) : Host.Outcome State Fault Refusal :=
  .next (s.loadRegs (x.toNat + 1))

end Sys2Proof.Machine
end

