-- ==== Sys2Proof/Machine/KeypadTimer.lean ====
section
/-! DEFINITION. The meanings of spec/45_keypad_timer.md: key skips, the key wait, the timers. On entry pc holds
p + 2. -/

namespace Sys2Proof.Machine

/-- SKP (R160): skip if the key is pressed; KeyIndexOutOfRange by the policy. -/
def execSkp (x : RegIdx) (s : State) : Host.Outcome State Fault Refusal :=
  match keyTest s.params.keyIndexPolicy s.keys (s.readV x) with
  | .state pressed => .next (s.skipIf pressed)
  | .outOfRange => s.raise .keyIndexOutOfRange (encode (.skp x))

/-- SKNP (R161): skip if the key is not pressed; KeyIndexOutOfRange by the policy. -/
def execSknp (x : RegIdx) (s : State) : Host.Outcome State Fault Refusal :=
  match keyTest s.params.keyIndexPolicy s.keys (s.readV x) with
  | .state pressed => .next (s.skipIf (!pressed))
  | .outOfRange => s.raise .keyIndexOutOfRange (encode (.sknp x))

/-- LD_VX_DT (R162). -/
def execLdVxDt (x : RegIdx) (s : State) : Host.Outcome State Fault Refusal :=
  .next (s.writeV x s.dt)

/-- LD_VX_K (R163): enter the wait, whether or not a key is pressed (log 19). -/
def execLdVxK (x : RegIdx) (s : State) : Host.Outcome State Fault Refusal :=
  .next (s.setWait (some x))

/-- LD_DT_VX (R164). -/
def execLdDtVx (x : RegIdx) (s : State) : Host.Outcome State Fault Refusal :=
  .next (s.setDt (s.readV x))

/-- LD_ST_VX (R165). -/
def execLdStVx (x : RegIdx) (s : State) : Host.Outcome State Fault Refusal :=
  .next (s.setSt (s.readV x))

end Sys2Proof.Machine
end

