-- ==== Sys2Proof/Machine/Cycle.lean ====
section
/-! DEFINITION. `cycle()` (spec/40_cycle.md R90 to R100): a latched cycle, a waiting cycle or an executing cycle,
chosen in this order (R90; log 27). -/

namespace Sys2Proof.Machine

/-- A latched cycle changes no state (R98); the record it returns is the latch's (`State.cycleResult`). -/
def latchedCycle (s : State) : Host.Outcome State Fault Refusal := .next s

/-- A waiting cycle with `wait = Some(r)` (R91): the lowest pressed key goes to V[r] and the wait ends; with no key
pressed nothing changes. It fetches nothing and leaves pc. -/
def waitingCycle (r : RegIdx) (s : State) : Host.Outcome State Fault Refusal :=
  match lowestKey s.keys with
  | some k => .next ((s.writeV r (BitVec.ofNat 8 k)).setWait none)
  | none => .next s

/-- The unrecognized word `op`, with pc already advanced (R95; log 12): a no-op under `LENIENT_UNKNOWN`, else the
fault UnknownOpcode. -/
def unknownOpcode (op : Word) (s : State) : Host.Outcome State Fault Refusal :=
  if s.params.lenientUnknown then .next s else s.raise .unknownOpcode op

/-- An executing cycle (R92 to R97): fetch, advance pc, decode, execute. -/
def executingCycle (s : State) : Host.Outcome State Fault Refusal :=
  match decode s.fetchWord with
  | .ok i => exec i s.advance
  | .error _ => unknownOpcode s.fetchWord s.advance

/-- `cycle()` (R90, R100). -/
def cycle (s : State) : Host.Outcome State Fault Refusal :=
  match s.fault with
  | some _ => latchedCycle s
  | none =>
    match s.wait with
    | some r => waitingCycle r s
    | none => executingCycle s

/-- The numeric code of a fault (spec/60_exceptions.md R200; log 28). -/
def Fault.number : Fault → Nat
  | .stackUnderflow => 1
  | .stackOverflow => 2
  | .unknownOpcode => 3
  | .keyIndexOutOfRange => 4
  | .invalidRom => 5

/-- The result of a `cycle()`. -/
inductive CycleResult where
  | ok
  | fault (r : FaultRecord)
  deriving DecidableEq, Repr

/-- The result of the `cycle()` that left the state `t`: `Fault` with the latch's record when the latch is set, else
`Ok` (R96 to R98). -/
def State.cycleResult (t : State) : CycleResult :=
  match t.fault with
  | none => .ok
  | some r => .fault r

end Sys2Proof.Machine
end

