-- ==== Sys2Proof/Machine/Step.lean ====
section
/-! DEFINITION. The step of the machine: one host call of `cycle()` (spec/40_cycle.md R90). -/

namespace Sys2Proof.Machine

/-- One step is one `cycle()` (log 1). -/
def step (s : State) : Host.Outcome State Fault Refusal := cycle s

/-- `s` with the opcode-table word `w` where `step` fetches its next instruction, the fault latch and the wait clear
(log 29). -/
def State.withFetchWord (s : State) (nbits w : Nat) : State := s.placeWord (tableWord nbits w)

end Sys2Proof.Machine
end

