-- ==== Sys2Proof/Machine/HostInterface.lean ====
section
/-! DEFINITION. The host operations beside `cycle()` (spec/60_exceptions.md R211, R214, R216, R219,
spec/70_reset_and_hazards.md R243): each atomic, each on the whole state. Construction is `State.construct`. -/

namespace Sys2Proof.Machine

/-- `tick_timers()` (R211): each timer down by one, floored at zero, whatever the wait and the latch. -/
def tickTimers (s : State) : State := { s with dt := tick s.dt, st := tick s.st }

/-- `set_pressed(k)` (R214). -/
def setPressed (k : KeyIdx) (s : State) : State := { s with keys := s.keys ||| BitVec.twoPow 16 k.toNat }

/-- `set_released(k)` (R214). -/
def setReleased (k : KeyIdx) (s : State) : State := { s with keys := s.keys &&& ~~~(BitVec.twoPow 16 k.toNat) }

/-- `get(x, y)`: the pixel `fb[y mod 32][x mod 64]` (R216; log 25). -/
def getPixel (x y : Nat) (s : State) : Bool := pixel s.fb x y

/-- `load_rom(bytes)` (R243): InvalidROM and nothing written when the image does not fit, else its bytes at 0x200
and up. -/
def loadRom (bytes : List Byte) (s : State) : Except Fault State :=
  if romFits bytes then .ok (s.storeBytes Config.romBase bytes) else .error .invalidRom

/-- The operations of R219 on a constructed instance. -/
inductive HostOp where
  | loadRom (bytes : List Byte)
  | cycle
  | tickTimers
  | setPressed (k : KeyIdx)
  | setReleased (k : KeyIdx)
  | get (x y : Nat)
  deriving DecidableEq, Repr

/-- The results of R219. -/
inductive HostResult where
  | none
  | ok
  | fault (r : FaultRecord)
  | invalidRom
  | pixel (b : Bool)
  deriving DecidableEq, Repr

/-- The result of a `cycle()` as the host receives it. -/
def CycleResult.toHost : CycleResult → HostResult
  | .ok => .ok
  | .fault r => .fault r

/-- One host operation: the state it leaves and the result it returns (R219). -/
def HostOp.apply (op : HostOp) (s : State) : Host.Outcome (State × HostResult) Fault Refusal :=
  match op with
  | .loadRom bytes =>
    match Machine.loadRom bytes s with
    | .ok t => .next (t, .ok)
    | .error _ => .next (s, .invalidRom)
  | .cycle =>
    match step s with
    | .next t => .next (t, t.cycleResult.toHost)
    | .fault r => .fault r
    | .refused r => .refused r
  | .tickTimers => .next (Machine.tickTimers s, .none)
  | .setPressed k => .next (Machine.setPressed k s, .none)
  | .setReleased k => .next (Machine.setReleased k s, .none)
  | .get x y => .next (s, .pixel (getPixel x y s))

/-- Whether the host may still load a ROM after this operation: `load_rom` comes at most once and before the first
`cycle()` (R219, R243; log 22). -/
def HostOp.keepsLoadOpen : HostOp → Bool
  | .loadRom _ => false
  | .cycle => false
  | .tickTimers => true
  | .setPressed _ => true
  | .setReleased _ => true
  | .get _ _ => true

/-- Whether the host may issue this operation (R219), `loadOpen` telling whether `load_rom` still may come. -/
def HostOp.allowed (loadOpen : Bool) : HostOp → Bool
  | .loadRom _ => loadOpen
  | .cycle => true
  | .tickTimers => true
  | .setPressed _ => true
  | .setReleased _ => true
  | .get _ _ => true

/-- A sequence of operations the host may issue, in this order (R219). -/
def hostSequenceAllowed : Bool → List HostOp → Bool
  | _, [] => true
  | loadOpen, op :: ops => op.allowed loadOpen && hostSequenceAllowed (loadOpen && op.keepsLoadOpen) ops

/-- A run of host operations, with their results in order; it stops where a step stops. -/
def runHost : List HostOp → State → Host.Outcome (State × List HostResult) Fault Refusal
  | [], s => .next (s, [])
  | op :: ops, s =>
    match op.apply s with
    | .next (t, r) =>
      match runHost ops t with
      | .next (u, rs) => .next (u, r :: rs)
      | .fault f => .fault f
      | .refused f => .refused f
    | .fault f => .fault f
    | .refused f => .refused f

end Sys2Proof.Machine
end

