-- ==== Sys2Proof/Safety.lean ====
section
/-! DEFINITION. The terms in which claims are stated: frames over the components of the state, the invariant of an
instance, its reachable states, and safe runs. -/

namespace Sys2Proof.Machine

/-! ## Encodings -/

/-- The encoding line of an instruction's rule: its word matches the rule's mask and match and decodes back to it. -/
def EncodedBy (i : Instr) (mask bits : Word) : Prop := encode i &&& mask = bits ∧ decode (encode i) = .ok i

/-! ## Frames -/

/-- The components of the state. -/
inductive Field where
  | v | I | pc | stack | dt | st | keys | fb | wait | fault | mem | params | draws
  deriving DecidableEq, Repr

/-- The component reads in `t` as it reads in `s`: every register for `v`, every byte for `mem`. -/
def Field.same (f : Field) (s t : State) : Prop :=
  match f with
  | .v => ∀ r, t.readV r = s.readV r
  | .I => t.I = s.I
  | .pc => t.pc = s.pc
  | .stack => t.stack = s.stack
  | .dt => t.dt = s.dt
  | .st => t.st = s.st
  | .keys => t.keys = s.keys
  | .fb => t.fb = s.fb
  | .wait => t.wait = s.wait
  | .fault => t.fault = s.fault
  | .mem => ∀ a, t.memRead a = s.memRead a
  | .params => t.params = s.params
  | .draws => t.draws = s.draws

/-- No component but those of `fs` differs between `s` and `t`. -/
def OnlyChanges (fs : List Field) (s t : State) : Prop := ∀ f, f ∉ fs → f.same s t

/-- No register but those of `rs` differs between `s` and `t`. -/
def OnlyRegs (rs : List RegIdx) (s t : State) : Prop := ∀ r, r ∉ rs → t.readV r = s.readV r

/-- No byte but those at `as` differs between `s` and `t`. -/
def OnlyBytes (as : List Addr) (s t : State) : Prop := ∀ a, a ∉ as → t.memRead a = s.memRead a

/-- `t` is the faulting of an instruction that ran with pc = p + 2 in `s`: pc is back at p, the latch holds
(code, p, opcode), nothing else has changed (spec/40_cycle.md R97). -/
def Latches (code : Fault) (opcode : Word) (s t : State) : Prop :=
  t.pc = s.pc - 2 ∧ t.fault = some { code := code, pc := s.pc - 2, opcode := opcode } ∧
    OnlyChanges [.pc, .fault] s t

/-- The components an instruction may change, pc being that of the instruction's end of cycle against p + 2: the
writers the rules of spec/10_state.md name for each component (R24, R26 to R34) and of memory (spec/20_memory.md
R51). -/
def footprint : Instr → List Field
  | .cls => [.fb]
  | .ret => [.pc, .stack, .fault]
  | .jp _ => [.pc]
  | .call _ => [.pc, .stack, .fault]
  | .seImm _ _ => [.pc]
  | .sneImm _ _ => [.pc]
  | .seReg _ _ => [.pc]
  | .ldImm _ _ => [.v]
  | .addImm _ _ => [.v]
  | .ldReg _ _ => [.v]
  | .or _ _ => [.v]
  | .and _ _ => [.v]
  | .xor _ _ => [.v]
  | .addReg _ _ => [.v]
  | .sub _ _ => [.v]
  | .shr _ _ => [.v]
  | .subn _ _ => [.v]
  | .shl _ _ => [.v]
  | .sneReg _ _ => [.pc]
  | .ldI _ => [.I]
  | .jpV0 _ => [.pc]
  | .rnd _ _ => [.v, .draws]
  | .drw _ _ _ => [.v, .fb]
  | .skp _ => [.pc, .fault]
  | .sknp _ => [.pc, .fault]
  | .ldVxDt _ => [.v]
  | .ldVxK _ => [.wait]
  | .ldDtVx _ => [.dt]
  | .ldStVx _ => [.st]
  | .addIVx _ => [.I]
  | .ldFVx _ => [.I]
  | .ldBVx _ => [.mem]
  | .ldMemVx _ => [.mem]
  | .ldVxMem _ => [.v]

/-- The registers an instruction may write in its own cycle: its destination, and VF for the writers of a flag
(spec/10_state.md R34). -/
def regsWritten : Instr → List RegIdx
  | .cls => []
  | .ret => []
  | .jp _ => []
  | .call _ => []
  | .seImm _ _ => []
  | .sneImm _ _ => []
  | .seReg _ _ => []
  | .ldImm x _ => [x]
  | .addImm x _ => [x]
  | .ldReg x _ => [x]
  | .or x _ => [x]
  | .and x _ => [x]
  | .xor x _ => [x]
  | .addReg x _ => [x, regF]
  | .sub x _ => [x, regF]
  | .shr x _ => [x, regF]
  | .subn x _ => [x, regF]
  | .shl x _ => [x, regF]
  | .sneReg _ _ => []
  | .ldI _ => []
  | .jpV0 _ => []
  | .rnd x _ => [x]
  | .drw _ _ _ => [regF]
  | .skp _ => []
  | .sknp _ => []
  | .ldVxDt x => [x]
  | .ldVxK _ => []
  | .ldDtVx _ => []
  | .ldStVx _ => []
  | .addIVx _ => []
  | .ldFVx _ => []
  | .ldBVx _ => []
  | .ldMemVx _ => []
  | .ldVxMem x => (List.range (x.toNat + 1)).map (BitVec.ofNat 4)

/-- The addresses an instruction stores to, from the state it runs on: three bytes for Fx33, x + 1 for Fx55, each
`I + k` modulo 4096 (spec/20_memory.md R51, spec/43_index_memory.md R146). -/
def bytesWritten (s : State) : Instr → List Addr
  | .cls => []
  | .ret => []
  | .jp _ => []
  | .call _ => []
  | .seImm _ _ => []
  | .sneImm _ _ => []
  | .seReg _ _ => []
  | .ldImm _ _ => []
  | .addImm _ _ => []
  | .ldReg _ _ => []
  | .or _ _ => []
  | .and _ _ => []
  | .xor _ _ => []
  | .addReg _ _ => []
  | .sub _ _ => []
  | .shr _ _ => []
  | .subn _ _ => []
  | .shl _ _ => []
  | .sneReg _ _ => []
  | .ldI _ => []
  | .jpV0 _ => []
  | .rnd _ _ => []
  | .drw _ _ _ => []
  | .skp _ => []
  | .sknp _ => []
  | .ldVxDt _ => []
  | .ldVxK _ => []
  | .ldDtVx _ => []
  | .ldStVx _ => []
  | .addIVx _ => []
  | .ldFVx _ => []
  | .ldBVx _ => [s.indexAddr 0, s.indexAddr 1, s.indexAddr 2]
  | .ldMemVx x => (List.range (x.toNat + 1)).map s.indexAddr
  | .ldVxMem _ => []

/-! ## Sprites -/

/-- A draw of `n` rows at (V[x], V[y]) from I has a 1 bit for the pixel of column `px` and row `py` of the grid: bit
`7 - col` of sprite row `row`, placed modulo 64 and 32 (spec/44_display.md R151). -/
def SpriteCovers (s : State) (x y : RegIdx) (n : BitVec 4) (px py : Nat) : Prop :=
  ∃ row col, row < n.toNat ∧ col < 8 ∧ (s.memRead (s.indexAddr row)).getLsbD (7 - col) = true ∧
    px = ((s.readV x).toNat + col) % 64 ∧ py = ((s.readV y).toNat + row) % 32

/-! ## Faults and the invariant -/

/-- The cause of a fault in an executing cycle from `s` (spec/60_exceptions.md R200 to R204), read from the fetched
word and the state alone. -/
def Causes (s : State) : Fault → Prop
  | .stackUnderflow => s.fetchWord = 0x00EE ∧ s.stack = []
  | .stackOverflow => s.fetchWord &&& 0xF000 = 0x2000 ∧ s.params.stackDepth = some s.stack.length
  | .unknownOpcode => wordRecognized s.fetchWord = false ∧ s.params.lenientUnknown = false
  | .keyIndexOutOfRange =>
    (s.fetchWord &&& 0xF0FF = 0xE09E ∨ s.fetchWord &&& 0xF0FF = 0xE0A1) ∧
      (s.readV (opX s.fetchWord)).toNat ≥ 16 ∧ s.params.keyIndexPolicy = .fault
  | .invalidRom => False

/-- The invariant of an instance: memory is canonical, the stack keeps its capacity, and a set fault latch is precise:
its record names the pc, the opcode there and a cause that still holds, and no wait is pending. -/
structure Inv (s : State) : Prop where
  mem_canonical : Memory.wf s.params.fontset s.mem
  stack_bounded : ∀ d, s.params.stackDepth = some d → s.stack.length ≤ d
  latch_precise : ∀ r, s.fault = some r →
    r.pc = s.pc ∧ r.opcode = s.fetchWord ∧ Causes s r.code ∧ s.wait = none

/-- The states an instance with the parameters `p` reaches under host operations (spec/60_exceptions.md R219); the
Boolean tells whether the host may still load a ROM. -/
inductive Reachable (p : Params) : Bool → State → Prop where
  | construct : Reachable p true (State.construct p)
  | operation (b : Bool) (s t : State) (op : HostOp) (r : HostResult) :
      Reachable p b s → op.allowed b = true → op.apply s = .next (t, r) →
      Reachable p (b && op.keepsLoadOpen) t

/-- A safe run: `k` cycles, none of which finds or sets the fault latch. -/
def SafeCycles : Nat → State → Prop
  | 0, s => s.fault = none
  | k + 1, s => s.fault = none ∧ ∃ t, step s = .next t ∧ SafeCycles k t

end Sys2Proof.Machine
end

