-- ==== Sys2Proof/Certificates/Slice0/Obligations.lean ====
section
/-! DEFINITION. The statements for the provers. The states `s` of a statement about `exec` have pc = p + 2, p being
the instruction's address (spec/40_cycle.md R92); a statement about `step` starts at p. Every statement holds for every
value of the parameters and of the random byte. -/

open Sys2Proof Sys2Proof.Machine

/-! ## Encoding and decoding -/

/-- Derived from R71, R72 and R80: every instruction, with every operand value, decodes from its own encoding. The
8xyN sub-codes are PRESUMED (log 21) on both sides. -/
def Obligations.DecodeOfEncodeIsTheInstruction : Prop :=
  ∀ i : Instr, decode (encode i) = .ok i ∧
    ∀ rest : List Byte, decodeBytes (encodeBytes i ++ rest) = .ok (i, rest)

/-- Derived from R71 and R72: a word that decodes is the encoding of what it decodes to, so no bit of it is
dropped. -/
def Obligations.EncodeOfDecodeIsTheWord : Prop :=
  ∀ (w : Word) (i : Instr), decode w = .ok i → encode i = w

/-- R74, against the mask and match columns of R80: every word matches exactly one row, the row of the instruction it
decodes to, or no row, and is then rejected. Derived, since the table's sub-codes of group 8 and its rows for groups 5
and 9 are the spec's own decisions (log 13, log 21). -/
def Obligations.DecodeAgreesWithTheOpcodeTable : Prop :=
  ∀ w : Word,
    (opcodeTable.filter (·.covers w)).map (·.mnemonic) =
      match decode w with
      | .ok i => [i.mnemonic]
      | .error _ => []

/-- Words written out from the patterns of R80 decode to their instructions, and words of R81 are rejected by name.
The decoding of 0x8124 and 0x845E and the rejection of 0x8128 rest on the PRESUMED sub-codes of group 8 (decision D17,
log 21), the rejection of 0x0123, 0x5121 and 0x9121 on decision D5 (log 13). -/
def Obligations.SampleWordsDecode : Prop :=
  decode 0x00E0 = .ok .cls ∧ decode 0x2ABC = .ok (.call 0xABC) ∧ decode 0x3A5F = .ok (.seImm 0xA 0x5F) ∧
  decode 0x8124 = .ok (.addReg 1 2) ∧ decode 0x845E = .ok (.shl 4 5) ∧ decode 0xD12F = .ok (.drw 1 2 15) ∧
  decode 0xE59E = .ok (.skp 5) ∧ decode 0xF265 = .ok (.ldVxMem 2) ∧
  decode 0x0123 = .error .group0 ∧ decode 0x5121 = .error .group5 ∧ decode 0x8128 = .error .group8 ∧
  decode 0x9121 = .error .group9 ∧ decode 0xE1FF = .error .groupE ∧ decode 0xF1FF = .error .groupF

/-! ## Memory -/

/-- R12, R59: a read after a write gives the written byte at that address and leaves every other byte; the write
changes nothing else. -/
def Obligations.MemoryReadAfterWrite : Prop :=
  ∀ (s : State) (a : Addr) (b : Byte),
    (s.memWrite a b).memRead a = b ∧ OnlyBytes [a] s (s.memWrite a b) ∧ OnlyChanges [.mem] s (s.memWrite a b)

/-- The model's memory form (log 7): two canonical memories that read alike at all 4096 addresses are the same
list. -/
def Obligations.CanonicalMemoriesThatReadAlikeAreEqual : Prop :=
  ∀ (font : Vector Byte 80) (m n : Memory), Memory.wf font m → Memory.wf font n →
    (∀ a, a < Config.memSize → Memory.read font m a = Memory.read font n a) → m = n

/-- R55: the fetched word holds the byte at pc in bits 15..8 and the byte at pc + 1 in bits 7..0, for every pc. -/
def Obligations.FetchIsBigEndian : Prop :=
  ∀ s : State, s.fetchWord.extractLsb' 8 8 = s.memRead s.pc ∧ s.fetchWord.extractLsb' 0 8 = s.memRead (s.pc + 1)

/-- R61: the registers Fx55 stores are the word the very next fetch reads, when pc points at them. -/
def Obligations.StoredBytesAreFetchedNext : Prop :=
  ∀ (s t : State) (x : RegIdx) (j : Nat), j < x.toNat → exec (.ldMemVx x) s = .next t → t.pc = s.indexAddr j →
    t.fetchWord = wordOfBytes (s.readV (BitVec.ofNat 4 j)) (s.readV (BitVec.ofNat 4 (j + 1)))

/-! ## Reset and the invariant -/

/-- R35, for every choice of the parameters, and reset as the construction with the defaults of R8. The entries for
fault, memory outside the fontset, keys and framebuffer are the spec's decisions D7, D14, D15 (logs 2, 7, 9); that reset
takes the defaults is the model's choice (log 3), the defaults themselves are the spec's decisions D4, D6, D13, D16 (logs
12, 14, 20, and the PRESUMED font of log 8). -/
def Obligations.ConstructionState : Prop :=
  (∀ p : Params,
    (State.construct p).pc = 0x200 ∧ (∀ r, (State.construct p).readV r = 0) ∧ (State.construct p).I = 0 ∧
    (State.construct p).stack = [] ∧ (State.construct p).dt = 0 ∧ (State.construct p).st = 0 ∧
    (State.construct p).wait = none ∧ (State.construct p).fault = none ∧ (State.construct p).keys = 0 ∧
    (∀ x y, getPixel x y (State.construct p) = false) ∧
    (∀ a : Addr, (h : a.toNat < 80) → (State.construct p).memRead a = p.fontset[a.toNat]) ∧
    (∀ a : Addr, 80 ≤ a.toNat → (State.construct p).memRead a = 0)) ∧
  State.reset = State.construct Config.defaults ∧
  State.reset.params.stackDepth = some 16 ∧ State.reset.params.lenientUnknown = false ∧
  State.reset.params.keyIndexPolicy = .fault ∧ State.reset.params.fontset = Config.defaultFont

/-- The state after construction meets the invariant, for every choice of the parameters. -/
def Obligations.ConstructionMeetsTheInvariant : Prop :=
  Inv State.reset ∧ ∀ p : Params, Inv (State.construct p)

/-- HEADLINE: every cycle keeps the invariant: memory stays canonical, the stack keeps its capacity, a set latch stays
precise. The latch is the spec's decision D7, the capacity its decision D6 (log 2, log 14). -/
def Obligations.StepKeepsTheInvariant : Prop :=
  ∀ s t : State, Inv s → step s = .next t → Inv t

/-- Every state an instance reaches under any allowed sequence of host operations (decisions D19 and D20, logs 1 and
22) meets the invariant and keeps its parameters, and no latch is set as long as `load_rom` may still come. The latch is
decision D7 (log 2), the canonical memory the model's form (log 7). -/
def Obligations.ReachableStatesMeetTheInvariant : Prop :=
  ∀ (p : Params) (loadOpen : Bool) (s : State), Reachable p loadOpen s →
    Inv s ∧ s.params = p ∧ (loadOpen = true → s.fault = none)

/-! ## The cycle -/

/-- R92, R94: with latch and wait clear, a step whose word at pc decodes is the instruction's meaning on the state
whose pc is (pc + 2) mod 4096 and which is otherwise the same. -/
def Obligations.StepRunsTheDecodedInstruction : Prop :=
  ∀ (s : State) (i : Instr), s.fault = none → s.wait = none → decode s.fetchWord = .ok i →
    step s = exec i { s with pc := s.pc + 2 }

/-- R95, with the spec's decisions D4 and D7 (log 12, log 2): a word of no row latches UnknownOpcode with pc left at
the word, or is a no-op that advances pc in lenient mode. -/
def Obligations.UnrecognizedWordFaultsOrIsSkipped : Prop :=
  ∀ s : State, s.fault = none → s.wait = none → wordRecognized s.fetchWord = false →
    (s.params.lenientUnknown = false →
      step s = .next { s with fault := some { code := .unknownOpcode, pc := s.pc, opcode := s.fetchWord } }) ∧
    (s.params.lenientUnknown = true → step s = .next { s with pc := s.pc + 2 })

/-- R91: a waiting cycle changes nothing while no key is pressed; else the lowest pressed key goes to V[r] and the wait
ends, with pc and everything else as before. -/
def Obligations.WaitingCycleTakesTheLowestKey : Prop :=
  ∀ (s : State) (r : RegIdx), s.fault = none → s.wait = some r →
    (s.keys = 0 → step s = .next s) ∧
    (s.keys ≠ 0 → ∃ t k, step s = .next t ∧ k < 16 ∧ s.keys.getLsbD k = true ∧
      (∀ j, j < k → s.keys.getLsbD j = false) ∧ t.readV r = BitVec.ofNat 8 k ∧ t.wait = none ∧
      OnlyRegs [r] s t ∧ OnlyChanges [.v, .wait] s t) ∧
    ∀ t, step s = .next t → t.cycleResult = .ok

/-- R98, the spec's decision D7 (log 2): a latched cycle changes no state, whatever the wait, and returns the latched
record. -/
def Obligations.LatchedCycleChangesNothing : Prop :=
  ∀ (s : State) (r : FaultRecord), s.fault = some r → step s = .next s ∧ s.cycleResult = .fault r

/-- R99, R205: no state is terminal; every cycle, from every state, goes on to a next state. -/
def Obligations.EveryStepHasANextState : Prop :=
  ∀ s : State, ∃ t, step s = .next t

/-- R97, R207, the spec's decisions D7 and D24 (log 2, log 6): a cycle that sets the latch has changed nothing else, and
the record holds the pc and the fetched word of the faulting instruction. -/
def Obligations.FaultsArePrecise : Prop :=
  ∀ (s t : State) (r : FaultRecord), s.fault = none → step s = .next t → t.fault = some r →
    t = { s with fault := some r } ∧ r.pc = s.pc ∧ r.opcode = s.fetchWord ∧ s.wait = none ∧
      t.cycleResult = .fault r

/-- R200 to R206 (decisions D4, D6, D13; logs 12, 14, 20): an executing cycle raises a fault exactly when its cause
holds, and at most one. In particular no instruction but RET, CALL, Ex9E and ExA1 raises one. -/
def Obligations.FaultsHaveExactlyTheirCauses : Prop :=
  ∀ (s t : State) (code : Fault), s.fault = none → s.wait = none → step s = .next t →
    ((∃ r, t.fault = some r ∧ r.code = code) ↔ Causes s code)

/-! ## Whole-machine frames -/

/-- R24, R27, R28, R30 to R34, R51: each component of the state has only the writers the rules name, each register only
the instructions it is a destination of, and each byte of memory only the stores that reach it. Derived: the rules R24,
R27 and R34 are marked as inferences or decisions, and the addresses wrap by decision D3 (log 11). -/
def Obligations.InstructionsChangeOnlyTheirFootprint : Prop :=
  ∀ (i : Instr) (s t : State), exec i s = .next t →
    OnlyChanges (footprint i) s t ∧ OnlyRegs (regsWritten i) s t ∧ OnlyBytes (bytesWritten s i) s t

/-- R21, R29: only the host writes the key vector, and nothing writes the parameters: no cycle changes either. -/
def Obligations.CyclesNeverChangeKeysOrParameters : Prop :=
  ∀ s t : State, step s = .next t → t.keys = s.keys ∧ t.params = s.params

/-- R153: no instruction but CLS and DRW changes the framebuffer, no cycle but one that executes them, and no host
operation but `cycle()`; of two runs of one instruction from states that differ only in the framebuffer, nothing else
differs but, after a DRW, VF. The host reads it with `get`. Derived: that the two runs of a Cxnn draw the same byte is
the model's choice (DESIGN CHOICE, log 34). -/
def Obligations.FramebufferIsWrittenByClsAndDrwAndReadByTheFlagAlone : Prop :=
  (∀ (i : Instr) (s t : State), exec i s = .next t →
    (i ≠ .cls → (∀ x y n, i ≠ .drw x y n) → t.fb = s.fb) ∧
    ∀ fb : Framebuffer, ∃ u, exec i { s with fb := fb } = .next u ∧
      OnlyChanges [.v, .fb] t u ∧ OnlyRegs [regF] t u ∧
      ((∀ x y n, i ≠ .drw x y n) → u.readV regF = t.readV regF)) ∧
  (∀ s t : State, step s = .next t → t.fb ≠ s.fb →
    s.fault = none ∧ s.wait = none ∧
      (decode s.fetchWord = .ok .cls ∨ ∃ x y n, decode s.fetchWord = .ok (.drw x y n))) ∧
  (∀ (op : HostOp) (s t : State) (r : HostResult), op ≠ .cycle → op.apply s = .next (t, r) → t.fb = s.fb) ∧
  ∀ (s : State) (px py : Nat), (HostOp.get px py).apply s = .next (s, .pixel (pixel s.fb px py))

/-! ## Control transfer -/

/-- R110 with R97 (the latch: decision D7, log 2): RET pops the last entry into pc, or latches StackUnderflow. -/
def Obligations.RetPopsOrUnderflows : Prop :=
  EncodedBy .ret 0xFFFF 0x00EE ∧
  (∀ (s : State) (rest : List Addr) (a : Addr), s.stack = rest ++ [a] →
    ∃ t, exec .ret s = .next t ∧ t.pc = a ∧ t.stack = rest ∧ OnlyChanges [.pc, .stack] s t) ∧
  (∀ s : State, s.stack = [] → ∃ t, exec .ret s = .next t ∧ Latches .stackUnderflow 0x00EE s t)

/-- R111: JP puts its target into pc, whatever its parity (decision D23, log 24), and a JP to its own address is
executed again by every later cycle, each of which leaves the state as it is (R99). -/
def Obligations.JpJumps : Prop :=
  (∀ (s : State) (nnn : Addr), EncodedBy (.jp nnn) 0xF000 0x1000 ∧
    ∃ t, exec (.jp nnn) s = .next t ∧ t.pc = nnn ∧ OnlyChanges [.pc] s t) ∧
  ∀ s : State, s.fault = none → s.wait = none → s.fetchWord = encode (.jp s.pc) → step s = .next s

/-- R112 with R97 (decisions D6, D7; logs 14, 2): CALL pushes the advanced pc and jumps, unless the stack holds
`STACK_DEPTH` entries; then it latches StackOverflow. -/
def Obligations.CallPushesOrOverflows : Prop :=
  ∀ (s : State) (nnn : Addr), EncodedBy (.call nnn) 0xF000 0x2000 ∧
    (s.params.stackDepth ≠ some s.stack.length →
      ∃ t, exec (.call nnn) s = .next t ∧ t.pc = nnn ∧ t.stack = s.stack ++ [s.pc] ∧
        OnlyChanges [.pc, .stack] s t) ∧
    (s.params.stackDepth = some s.stack.length →
      ∃ t, exec (.call nnn) s = .next t ∧ Latches .stackOverflow (encode (.call nnn)) s t)

/-- R112: a CALL and a RET executed right after it at the target leave pc after the CALL and the stack, and all else,
as they were. Two cycles: the RET is fetched with its own advance. -/
def Obligations.CallThenRetReturns : Prop :=
  ∀ (s : State) (nnn : Addr), s.params.stackDepth ≠ some s.stack.length →
    ∃ t, exec (.call nnn) s = .next t ∧ exec .ret { t with pc := t.pc + 2 } = .next s

/-- R113 (the wrap: decision D2, log 10): JP_V0 jumps to (nnn + V[0]) mod 4096. -/
def Obligations.JpV0AddsV0 : Prop :=
  ∀ (s : State) (nnn : Addr), EncodedBy (.jpV0 nnn) 0xF000 0xB000 ∧
    ∃ t, exec (.jpV0 nnn) s = .next t ∧
    t.pc.toNat = (nnn.toNat + (s.readV 0).toNat) % 4096 ∧ OnlyChanges [.pc] s t

/-- R114, R115 (the wrap of pc: decision D2, log 10): the immediate skips add 2 to pc when V[x] equals, or differs from,
nn, and change nothing else. -/
def Obligations.ImmediateSkips : Prop :=
  ∀ (s : State) (x : RegIdx) (nn : Byte),
    EncodedBy (.seImm x nn) 0xF000 0x3000 ∧ EncodedBy (.sneImm x nn) 0xF000 0x4000 ∧
    (∃ t, exec (.seImm x nn) s = .next t ∧ OnlyChanges [.pc] s t ∧
      (s.readV x = nn → t.pc = s.pc + 2) ∧ (s.readV x ≠ nn → t.pc = s.pc)) ∧
    (∃ t, exec (.sneImm x nn) s = .next t ∧ OnlyChanges [.pc] s t ∧
      (s.readV x ≠ nn → t.pc = s.pc + 2) ∧ (s.readV x = nn → t.pc = s.pc))

/-- R116, R117 (the wrap of pc: decision D2, log 10): the register skips add 2 to pc when V[x] equals, or differs from,
V[y], and change nothing else. -/
def Obligations.RegisterSkips : Prop :=
  ∀ (s : State) (x y : RegIdx),
    EncodedBy (.seReg x y) 0xF00F 0x5000 ∧ EncodedBy (.sneReg x y) 0xF00F 0x9000 ∧
    (∃ t, exec (.seReg x y) s = .next t ∧ OnlyChanges [.pc] s t ∧
      (s.readV x = s.readV y → t.pc = s.pc + 2) ∧ (s.readV x ≠ s.readV y → t.pc = s.pc)) ∧
    (∃ t, exec (.sneReg x y) s = .next t ∧ OnlyChanges [.pc] s t ∧
      (s.readV x ≠ s.readV y → t.pc = s.pc + 2) ∧ (s.readV x = s.readV y → t.pc = s.pc))

/-! ## Register loads and the ALU group -/

/-- R120, R122: LD_IMM and LD_REG write their operand to V[x], and nothing else. That the assignment leaves VF, unless
x = 15, is decision D9 (log 16). -/
def Obligations.RegisterLoads : Prop :=
  ∀ (s : State) (x y : RegIdx) (nn : Byte),
    EncodedBy (.ldImm x nn) 0xF000 0x6000 ∧ EncodedBy (.ldReg x y) 0xF00F 0x8000 ∧
    (∃ t, exec (.ldImm x nn) s = .next t ∧ t.readV x = nn ∧ OnlyRegs [x] s t ∧ OnlyChanges [.v] s t) ∧
    (∃ t, exec (.ldReg x y) s = .next t ∧ t.readV x = s.readV y ∧ OnlyRegs [x] s t ∧ OnlyChanges [.v] s t)

/-- R121 (VF unchanged: decision D9, log 16): ADD_IMM adds modulo 256 and writes no flag. -/
def Obligations.AddImmWraps : Prop :=
  ∀ (s : State) (x : RegIdx) (nn : Byte), EncodedBy (.addImm x nn) 0xF000 0x7000 ∧
    ∃ t, exec (.addImm x nn) s = .next t ∧
    (t.readV x).toNat = ((s.readV x).toNat + nn.toNat) % 256 ∧ OnlyRegs [x] s t ∧ OnlyChanges [.v] s t

/-- R123, R124, R125 (VF unchanged: decision D9, log 16; sub-codes log 21): the bitwise operations, bit by bit. -/
def Obligations.BitwiseOperations : Prop :=
  ∀ (s : State) (x y : RegIdx),
    EncodedBy (.or x y) 0xF00F 0x8001 ∧ EncodedBy (.and x y) 0xF00F 0x8002 ∧ EncodedBy (.xor x y) 0xF00F 0x8003 ∧
    (∃ t, exec (.or x y) s = .next t ∧ OnlyRegs [x] s t ∧ OnlyChanges [.v] s t ∧
      ∀ k, (t.readV x).getLsbD k = ((s.readV x).getLsbD k || (s.readV y).getLsbD k)) ∧
    (∃ t, exec (.and x y) s = .next t ∧ OnlyRegs [x] s t ∧ OnlyChanges [.v] s t ∧
      ∀ k, (t.readV x).getLsbD k = ((s.readV x).getLsbD k && (s.readV y).getLsbD k)) ∧
    (∃ t, exec (.xor x y) s = .next t ∧ OnlyRegs [x] s t ∧ OnlyChanges [.v] s t ∧
      ∀ k, (t.readV x).getLsbD k = ((s.readV x).getLsbD k ^^ (s.readV y).getLsbD k))

/-- R126: the sum modulo 256 in V[x], unless x = 15, and the carry in VF, written last. -/
def Obligations.AddRegSetsCarry : Prop :=
  ∀ (s : State) (x y : RegIdx), EncodedBy (.addReg x y) 0xF00F 0x8004 ∧
    ∃ t, exec (.addReg x y) s = .next t ∧
    (x ≠ 15 → (t.readV x).toNat = ((s.readV x).toNat + (s.readV y).toNat) % 256) ∧
    t.readV 15 = (if (s.readV x).toNat + (s.readV y).toNat > 255 then 1 else 0) ∧
    OnlyRegs [x, 15] s t ∧ OnlyChanges [.v] s t

/-- R127: V[x] - V[y] modulo 256, unless x = 15, and VF = 1 iff V[x] ≥ V[y]. -/
def Obligations.SubSetsNoBorrow : Prop :=
  ∀ (s : State) (x y : RegIdx), EncodedBy (.sub x y) 0xF00F 0x8005 ∧
    ∃ t, exec (.sub x y) s = .next t ∧
    (x ≠ 15 → ((t.readV x).toNat : Int) = (((s.readV x).toNat : Int) - (s.readV y).toNat) % 256) ∧
    t.readV 15 = (if (s.readV x).toNat ≥ (s.readV y).toNat then 1 else 0) ∧
    OnlyRegs [x, 15] s t ∧ OnlyChanges [.v] s t

/-- R129: V[y] - V[x] modulo 256, unless x = 15, and VF = 1 iff V[y] ≥ V[x]. -/
def Obligations.SubnSetsNoBorrow : Prop :=
  ∀ (s : State) (x y : RegIdx), EncodedBy (.subn x y) 0xF00F 0x8007 ∧
    ∃ t, exec (.subn x y) s = .next t ∧
    (x ≠ 15 → ((t.readV x).toNat : Int) = (((s.readV y).toNat : Int) - (s.readV x).toNat) % 256) ∧
    t.readV 15 = (if (s.readV y).toNat ≥ (s.readV x).toNat then 1 else 0) ∧
    OnlyRegs [x, 15] s t ∧ OnlyChanges [.v] s t

/-- R128: half of V[x], unless x = 15, and VF = the low bit before the shift; V[y] has no part in it. -/
def Obligations.ShrTakesTheLowBit : Prop :=
  ∀ (s : State) (x y : RegIdx), EncodedBy (.shr x y) 0xF00F 0x8006 ∧
    ∃ t, exec (.shr x y) s = .next t ∧
    (x ≠ 15 → (t.readV x).toNat = (s.readV x).toNat / 2) ∧
    (t.readV 15).toNat = (s.readV x).toNat % 2 ∧ OnlyRegs [x, 15] s t ∧ OnlyChanges [.v] s t

/-- R130: twice V[x] modulo 256, unless x = 15, and VF = the high bit before the shift; V[y] has no part in it. -/
def Obligations.ShlTakesTheHighBit : Prop :=
  ∀ (s : State) (x y : RegIdx), EncodedBy (.shl x y) 0xF00F 0x800E ∧
    ∃ t, exec (.shl x y) s = .next t ∧
    (x ≠ 15 → (t.readV x).toNat = (s.readV x).toNat * 2 % 256) ∧
    (t.readV 15).toNat = (s.readV x).toNat / 128 ∧ OnlyRegs [x, 15] s t ∧ OnlyChanges [.v] s t

/-- R133 (the free input: decision D18, log 4): V[x] is the random byte masked by nn, whatever byte is drawn, and one
byte is drawn. -/
def Obligations.RndMasksARandomByte : Prop :=
  ∀ (s : State) (x : RegIdx) (nn : Byte), EncodedBy (.rnd x nn) 0xF000 0xC000 ∧
    (∃ t, exec (.rnd x nn) s = .next t ∧ t = s.randomInto x nn (Config.randomByte s.draws)) ∧
    ∀ r : Byte, (s.randomInto x nn r).readV x = r &&& nn ∧ (s.randomInto x nn r).draws = s.draws + 1 ∧
      OnlyRegs [x] s (s.randomInto x nn r) ∧ OnlyChanges [.v, .draws] s (s.randomInto x nn r)

/-! ## Index register and memory -/

/-- R140: LD_I writes nnn to I. -/
def Obligations.LdISetsTheIndex : Prop :=
  ∀ (s : State) (nnn : Addr), EncodedBy (.ldI nnn) 0xF000 0xA000 ∧
    ∃ t, exec (.ldI nnn) s = .next t ∧ t.I = nnn ∧ OnlyChanges [.I] s t

/-- R141 (VF unchanged: decision D9, log 16): I + V[x] modulo 4096. -/
def Obligations.AddIVxWraps : Prop :=
  ∀ (s : State) (x : RegIdx), EncodedBy (.addIVx x) 0xF0FF 0xF01E ∧
    ∃ t, exec (.addIVx x) s = .next t ∧
    t.I.toNat = (s.I.toNat + (s.readV x).toNat) % 4096 ∧ OnlyChanges [.I] s t

/-- R142: I is five times the whole byte V[x]. -/
def Obligations.LdFVxPointsAtTheGlyph : Prop :=
  ∀ (s : State) (x : RegIdx), EncodedBy (.ldFVx x) 0xF0FF 0xF029 ∧
    ∃ t, exec (.ldFVx x) s = .next t ∧
    t.I.toNat = (s.readV x).toNat * 5 ∧ OnlyChanges [.I] s t

/-- R143 (the wrap of the addresses: decision D3, log 11; a store reaches every byte, the fontset and the program
included: decision D21, log 23): the decimal digits of V[x] at I, I + 1, I + 2 modulo 4096, every other byte and
component unchanged. -/
def Obligations.LdBVxStoresDecimalDigits : Prop :=
  ∀ (s : State) (x : RegIdx), EncodedBy (.ldBVx x) 0xF0FF 0xF033 ∧
    ∃ t, exec (.ldBVx x) s = .next t ∧
    (t.memRead s.I).toNat = (s.readV x).toNat / 100 ∧
    (t.memRead (s.I + 1)).toNat = (s.readV x).toNat / 10 % 10 ∧
    (t.memRead (s.I + 2)).toNat = (s.readV x).toNat % 10 ∧
    OnlyBytes [s.I, s.I + 1, s.I + 2] s t ∧ OnlyChanges [.mem] s t

/-- R144 (I unchanged: decision D8, log 15): V[k] at I + k modulo 4096 for k up to x, nothing else. -/
def Obligations.LdMemVxStoresRegisters : Prop :=
  ∀ (s : State) (x : RegIdx), EncodedBy (.ldMemVx x) 0xF0FF 0xF055 ∧
    ∃ t, exec (.ldMemVx x) s = .next t ∧
    (∀ k, k ≤ x.toNat → t.memRead (s.indexAddr k) = s.readV (BitVec.ofNat 4 k)) ∧
    (∀ a, (∀ k, k ≤ x.toNat → a ≠ s.indexAddr k) → t.memRead a = s.memRead a) ∧
    OnlyChanges [.mem] s t

/-- R145 (I unchanged: decision D8, log 15): V[k] from I + k modulo 4096 for k up to x; the registers above x and all
else unchanged. -/
def Obligations.LdVxMemLoadsRegisters : Prop :=
  ∀ (s : State) (x : RegIdx), EncodedBy (.ldVxMem x) 0xF0FF 0xF065 ∧
    ∃ t, exec (.ldVxMem x) s = .next t ∧
    (∀ r : RegIdx, r.toNat ≤ x.toNat → t.readV r = s.memRead (s.indexAddr r.toNat)) ∧
    (∀ r : RegIdx, x.toNat < r.toNat → t.readV r = s.readV r) ∧ OnlyChanges [.v] s t

/-! ## Display -/

/-- R150: CLS makes every pixel 0 and changes nothing else. -/
def Obligations.ClsClearsEveryPixel : Prop :=
  EncodedBy .cls 0xFFFF 0x00E0 ∧
  ∀ s : State, ∃ t, exec .cls s = .next t ∧ (∀ x y, getPixel x y t = false) ∧ OnlyChanges [.fb] s t

/-- R151 and R152 (read order D10, bit order D11; logs 17, 18): the pixel-by-pixel loop of DRW flips exactly
the pixels its sprite covers, whatever the order, with both coordinates wrapped, and VF is 1 exactly when a covered
pixel was 1 before the instruction. -/
def Obligations.DrwFlipsTheSpriteAndReportsCollision : Prop :=
  ∀ (s : State) (x y : RegIdx) (n : BitVec 4), EncodedBy (.drw x y n) 0xF000 0xD000 ∧
    ∃ t, exec (.drw x y n) s = .next t ∧
    (∀ px py, px < 64 → py < 32 →
      (SpriteCovers s x y n px py → getPixel px py t = !getPixel px py s) ∧
      (¬ SpriteCovers s x y n px py → getPixel px py t = getPixel px py s)) ∧
    ((∃ px py, SpriteCovers s x y n px py ∧ getPixel px py s = true) → t.readV 15 = 1) ∧
    ((∀ px py, SpriteCovers s x y n px py → getPixel px py s = false) → t.readV 15 = 0) ∧
    OnlyRegs [15] s t ∧ OnlyChanges [.v, .fb] s t

/-! ## Keypad and timers -/

/-- R160, R161 for a key index below 16: SKP and SKNP skip by the state of key V[x] and change nothing else. -/
def Obligations.KeySkipsTestTheirKey : Prop :=
  ∀ (s : State) (x : RegIdx), (s.readV x).toNat < 16 →
    EncodedBy (.skp x) 0xF0FF 0xE09E ∧ EncodedBy (.sknp x) 0xF0FF 0xE0A1 ∧
    (∃ t, exec (.skp x) s = .next t ∧ OnlyChanges [.pc] s t ∧
      t.pc = (if s.keys.getLsbD (s.readV x).toNat then s.pc + 2 else s.pc)) ∧
    (∃ t, exec (.sknp x) s = .next t ∧ OnlyChanges [.pc] s t ∧
      t.pc = (if s.keys.getLsbD (s.readV x).toNat then s.pc else s.pc + 2))

/-- R160, R161 for a key index of 16 or more (decision D13, log 20; the latch: D7, log 2): by the policy, a latched
KeyIndexOutOfRange, a test of key V[x] mod 16, or a key that counts as not pressed. -/
def Obligations.KeyIndexOutOfRangeGoesByPolicy : Prop :=
  ∀ (s : State) (x : RegIdx), (s.readV x).toNat ≥ 16 →
    (s.params.keyIndexPolicy = .fault →
      (∃ t, exec (.skp x) s = .next t ∧ Latches .keyIndexOutOfRange (encode (.skp x)) s t) ∧
      (∃ t, exec (.sknp x) s = .next t ∧ Latches .keyIndexOutOfRange (encode (.sknp x)) s t)) ∧
    (s.params.keyIndexPolicy = .mask →
      (∃ t, exec (.skp x) s = .next t ∧ OnlyChanges [.pc] s t ∧
        t.pc = (if s.keys.getLsbD ((s.readV x).toNat % 16) then s.pc + 2 else s.pc)) ∧
      (∃ t, exec (.sknp x) s = .next t ∧ OnlyChanges [.pc] s t ∧
        t.pc = (if s.keys.getLsbD ((s.readV x).toNat % 16) then s.pc else s.pc + 2))) ∧
    (s.params.keyIndexPolicy = .notPressed →
      (∃ t, exec (.skp x) s = .next t ∧ OnlyChanges [.pc] s t ∧ t.pc = s.pc) ∧
      (∃ t, exec (.sknp x) s = .next t ∧ OnlyChanges [.pc] s t ∧ t.pc = s.pc + 2))

/-- R162, R164: the transfers between V[x] and the delay timer; the next tick is the first to decrement the value
Fx15 wrote. -/
def Obligations.DelayTimerTransfers : Prop :=
  ∀ (s : State) (x : RegIdx), EncodedBy (.ldVxDt x) 0xF0FF 0xF007 ∧ EncodedBy (.ldDtVx x) 0xF0FF 0xF015 ∧
    (∃ t, exec (.ldVxDt x) s = .next t ∧ t.readV x = s.dt ∧ OnlyRegs [x] s t ∧ OnlyChanges [.v] s t) ∧
    (∃ t, exec (.ldDtVx x) s = .next t ∧ t.dt = s.readV x ∧ OnlyChanges [.dt] s t ∧
      (tickTimers t).dt.toNat = (s.readV x).toNat - 1)

/-- R165, R28, R213 (decision D27): Fx18 writes ST and nothing else, and no instruction reads ST: of two runs of one
instruction from states that differ only in ST, nothing but ST differs. That the two runs of a Cxnn draw the same byte
is the model's choice (DESIGN CHOICE, log 34). -/
def Obligations.SoundTimerIsWrittenAndNeverRead : Prop :=
  (∀ (s : State) (x : RegIdx), EncodedBy (.ldStVx x) 0xF0FF 0xF018 ∧
    ∃ t, exec (.ldStVx x) s = .next t ∧ t.st = s.readV x ∧ OnlyChanges [.st] s t) ∧
  ∀ (i : Instr) (s t : State) (b : Byte), exec i s = .next t →
    ∃ c, exec i { s with st := b } = .next { t with st := c }

/-- R163 (decision D12, log 19): LD_VX_K enters the wait for V[x], whatever the keys, and writes nothing else. -/
def Obligations.LdVxKEntersTheWait : Prop :=
  ∀ (s : State) (x : RegIdx), EncodedBy (.ldVxK x) 0xF0FF 0xF00A ∧
    ∃ t, exec (.ldVxK x) s = .next t ∧ t.wait = some x ∧ OnlyChanges [.wait] s t

/-! ## Host operations -/

/-- R211 (in every state: decision D19, log 1): each timer goes down by one unless it is zero; nothing else
changes. -/
def Obligations.TickTimersCountsDownToZero : Prop :=
  ∀ s : State, (tickTimers s).dt.toNat = s.dt.toNat - 1 ∧ (tickTimers s).st.toNat = s.st.toNat - 1 ∧
    OnlyChanges [.dt, .st] s (tickTimers s)

/-- R214 (the representation: decision D26, log 26): the mutators set one key, leave the fifteen others and all else,
and are idempotent. -/
def Obligations.KeyMutatorsSetOneKey : Prop :=
  ∀ (s : State) (k : KeyIdx),
    (∀ j, j < 16 → (setPressed k s).keys.getLsbD j = (decide (j = k.toNat) || s.keys.getLsbD j)) ∧
    (∀ j, j < 16 → (setReleased k s).keys.getLsbD j = (!decide (j = k.toNat) && s.keys.getLsbD j)) ∧
    setPressed k (setPressed k s) = setPressed k s ∧ setReleased k (setReleased k s) = setReleased k s ∧
    OnlyChanges [.keys] s (setPressed k s) ∧ OnlyChanges [.keys] s (setReleased k s)

/-- R216 (the reduction: decision D25, log 25; bit x of a row is column x: log 30): `get(x, y)` is the pixel
`fb[y mod 32][x mod 64]`, and changes no state. -/
def Obligations.GetReadsThePixelModuloTheGrid : Prop :=
  ∀ (s : State) (x y : Nat),
    getPixel x y s = (s.fb[y % 32]'(rowIdx_lt y)).getLsbD (x % 64) ∧
    getPixel x y s = getPixel (x % 64) (y % 32) s ∧
    (HostOp.get x y).apply s = .next (s, .pixel (getPixel x y s))

/-- R243 (when it may come: decision D20, log 22): an image of more than 3584 bytes is rejected and writes nothing; any
other lands at 0x200 and up, and leaves every other byte and component. -/
def Obligations.LoadRomLoadsOrRejects : Prop :=
  ∀ (s : State) (bytes : List Byte),
    (bytes.length > 3584 → (HostOp.loadRom bytes).apply s = .next (s, .invalidRom)) ∧
    (bytes.length ≤ 3584 → ∃ t, (HostOp.loadRom bytes).apply s = .next (t, .ok) ∧
      (∀ k, (h : k < bytes.length) → t.memRead (0x200 + BitVec.ofNat 12 k) = bytes[k]) ∧
      (∀ a : Addr, a.toNat < 0x200 ∨ 0x200 + bytes.length ≤ a.toNat → t.memRead a = s.memRead a) ∧
      OnlyChanges [.mem] s t)

/-- R219 (every schedule: decisions D19, D20; logs 1, 22): every sequence of operations the host may issue after
construction runs to its end, with one result for each operation, and leads to a reachable state. -/
def Obligations.EveryAllowedHostSequenceRuns : Prop :=
  ∀ (p : Params) (ops : List HostOp), hostSequenceAllowed true ops = true →
    ∃ t rs loadOpen, runHost ops (State.construct p) = .next (t, rs) ∧ rs.length = ops.length ∧
      Reachable p loadOpen t

/-- HEADLINE, the step lemma of all host operations (R219), `cycle()` among them: each keeps the invariant and the
parameters, from every state that meets the invariant; `load_rom` from one whose latch is clear, since it comes before
the first cycle (decision D20, log 22). The latch is decision D7 (log 2), the operations' atomicity D1 (log 1), the
canonical memory the model's form (log 7). -/
def Obligations.HostOperationsKeepTheInvariant : Prop :=
  ∀ (op : HostOp) (s t : State) (r : HostResult), Inv s → (∀ bytes, op = .loadRom bytes → s.fault = none) →
    op.apply s = .next (t, r) → Inv t ∧ t.params = s.params
end

