-- ==== Sys2Proof/Laws/Decode.lean ====
section
/-! SUPPORT. The fields of a word in each format of spec/30_encoding.md R72, and a word as the format of its
fields. -/

namespace Sys2Proof

/-! ## Reading the fields a format wrote -/

@[simp] theorem opGroup_formatNNN (o : BitVec 4) (nnn : Addr) : opGroup (formatNNN o nnn) = o :=
  BitVec.extractLsb'_append_eq_left

@[simp] theorem opNNN_formatNNN (o : BitVec 4) (nnn : Addr) : opNNN (formatNNN o nnn) = nnn :=
  BitVec.extractLsb'_append_eq_right

@[simp] theorem opGroup_formatXNN (o : BitVec 4) (x : RegIdx) (nn : Byte) : opGroup (formatXNN o x nn) = o :=
  opGroup_formatNNN o (x ++ nn)

@[simp] theorem opX_formatXNN (o : BitVec 4) (x : RegIdx) (nn : Byte) : opX (formatXNN o x nn) = x := by
  apply BitVec.eq_of_getLsbD_eq
  intro i hi
  simp only [opX, formatXNN, BitVec.getLsbD_extractLsb', BitVec.getLsbD_append]
  simp [hi]
  omega

@[simp] theorem opNN_formatXNN (o : BitVec 4) (x : RegIdx) (nn : Byte) : opNN (formatXNN o x nn) = nn := by
  apply BitVec.eq_of_getLsbD_eq
  intro i hi
  simp only [opNN, formatXNN, BitVec.getLsbD_extractLsb', BitVec.getLsbD_append]
  simp [hi]
  omega

@[simp] theorem opGroup_formatXYN (o : BitVec 4) (x y : RegIdx) (n : BitVec 4) : opGroup (formatXYN o x y n) = o :=
  opGroup_formatXNN o x (y ++ n)

@[simp] theorem opX_formatXYN (o : BitVec 4) (x y : RegIdx) (n : BitVec 4) : opX (formatXYN o x y n) = x :=
  opX_formatXNN o x (y ++ n)

@[simp] theorem opY_formatXYN (o : BitVec 4) (x y : RegIdx) (n : BitVec 4) : opY (formatXYN o x y n) = y := by
  apply BitVec.eq_of_getLsbD_eq
  intro i hi
  simp only [opY, formatXYN, BitVec.getLsbD_extractLsb', BitVec.getLsbD_append]
  simp [hi, show 4 + i < 8 by omega]
  omega

@[simp] theorem opN_formatXYN (o : BitVec 4) (x y : RegIdx) (n : BitVec 4) : opN (formatXYN o x y n) = n := by
  apply BitVec.eq_of_getLsbD_eq
  intro i hi
  simp only [opN, formatXYN, BitVec.getLsbD_extractLsb', BitVec.getLsbD_append]
  simp [hi, show i < 8 by omega]
  omega

/-! ## A word is the format of its fields -/

theorem formatNNN_fields (w : Word) : formatNNN (opGroup w) (opNNN w) = w := by
  apply BitVec.eq_of_getLsbD_eq
  intro i hi
  simp only [formatNNN, opGroup, opNNN, BitVec.getLsbD_append, BitVec.getLsbD_extractLsb']
  split
  · simp [*]
  · next h => simp [show i - 12 < 4 by omega, show 12 + (i - 12) = i by omega]

theorem opNNN_fields (w : Word) : (opX w ++ opNN w : BitVec 12) = opNNN w := by
  apply BitVec.eq_of_getLsbD_eq
  intro i hi
  simp only [opX, opNN, opNNN, BitVec.getLsbD_append, BitVec.getLsbD_extractLsb']
  split
  · simp [*]
  · next h => simp [hi, show i - 8 < 4 by omega, show 8 + (i - 8) = i by omega]

theorem opNN_fields (w : Word) : (opY w ++ opN w : BitVec 8) = opNN w := by
  apply BitVec.eq_of_getLsbD_eq
  intro i hi
  simp only [opY, opN, opNN, BitVec.getLsbD_append, BitVec.getLsbD_extractLsb']
  split
  · simp [*]
  · next h => simp [hi, show i - 4 < 4 by omega, show 4 + (i - 4) = i by omega]

theorem formatXNN_fields (w : Word) : formatXNN (opGroup w) (opX w) (opNN w) = w := by
  rw [formatXNN, opNNN_fields]; exact formatNNN_fields w

theorem formatXYN_fields (w : Word) : formatXYN (opGroup w) (opX w) (opY w) (opN w) = w := by
  rw [formatXYN, opNN_fields]; exact formatXNN_fields w

/-! ## Masking a format, field by field -/

theorem formatNNN_and (o p : BitVec 4) (a b : Addr) :
    formatNNN o a &&& formatNNN p b = formatNNN (o &&& p) (a &&& b) :=
  BitVec.and_append

theorem formatXNN_and (o p : BitVec 4) (x u : RegIdx) (a b : Byte) :
    formatXNN o x a &&& formatXNN p u b = formatXNN (o &&& p) (x &&& u) (a &&& b) :=
  (formatNNN_and o p (x ++ a) (u ++ b)).trans (congrArg (formatNNN (o &&& p)) BitVec.and_append)

theorem formatXYN_and (o p : BitVec 4) (x u y v : RegIdx) (n m : BitVec 4) :
    formatXYN o x y n &&& formatXYN p u v m = formatXYN (o &&& p) (x &&& u) (y &&& v) (n &&& m) :=
  (formatXNN_and o p x u (y ++ n) (v ++ m)).trans (congrArg (formatXNN (o &&& p) (x &&& u)) BitVec.and_append)

/-! ## The two bytes of a word -/

/-- The word of two bytes gives the bytes back. -/
@[simp] theorem wordOfBytes_hi (hi lo : Byte) : (wordOfBytes hi lo).extractLsb' 8 8 = hi :=
  BitVec.extractLsb'_append_eq_left

@[simp] theorem wordOfBytes_lo (hi lo : Byte) : (wordOfBytes hi lo).extractLsb' 0 8 = lo :=
  BitVec.extractLsb'_append_eq_right

/-- A word is the word of its two bytes. -/
@[simp] theorem wordOfBytes_bytes (w : Word) : wordOfBytes (w.extractLsb' 8 8) (w.extractLsb' 0 8) = w := by
  apply BitVec.eq_of_getLsbD_eq
  intro i hi
  simp only [wordOfBytes, BitVec.getLsbD_append, BitVec.getLsbD_extractLsb']
  split
  · simp [*]
  · next h => simp [show i - 8 < 8 by omega, show 8 + (i - 8) = i by omega]

end Sys2Proof
end

