-- ==== Sys2Proof/Laws/State.lean ====
section
/-! SUPPORT. One lemma for each field and each update of the state, true by rfl, so that no proof unfolds a record
update; and how the updates read through `readV` and `memRead`. -/

namespace Sys2Proof.Machine

variable (s : State)


/-! ## writeV -/

@[simp] theorem State.writeV_v (x : RegIdx) (b : Byte) : (s.writeV x b).v = s.v.set x.toNat b (regIdx_lt x) := rfl
@[simp] theorem State.writeV_I (x : RegIdx) (b : Byte) : (s.writeV x b).I = s.I := rfl
@[simp] theorem State.writeV_pc (x : RegIdx) (b : Byte) : (s.writeV x b).pc = s.pc := rfl
@[simp] theorem State.writeV_stack (x : RegIdx) (b : Byte) : (s.writeV x b).stack = s.stack := rfl
@[simp] theorem State.writeV_dt (x : RegIdx) (b : Byte) : (s.writeV x b).dt = s.dt := rfl
@[simp] theorem State.writeV_st (x : RegIdx) (b : Byte) : (s.writeV x b).st = s.st := rfl
@[simp] theorem State.writeV_keys (x : RegIdx) (b : Byte) : (s.writeV x b).keys = s.keys := rfl
@[simp] theorem State.writeV_fb (x : RegIdx) (b : Byte) : (s.writeV x b).fb = s.fb := rfl
@[simp] theorem State.writeV_wait (x : RegIdx) (b : Byte) : (s.writeV x b).wait = s.wait := rfl
@[simp] theorem State.writeV_fault (x : RegIdx) (b : Byte) : (s.writeV x b).fault = s.fault := rfl
@[simp] theorem State.writeV_mem (x : RegIdx) (b : Byte) : (s.writeV x b).mem = s.mem := rfl
@[simp] theorem State.writeV_params (x : RegIdx) (b : Byte) : (s.writeV x b).params = s.params := rfl
@[simp] theorem State.writeV_draws (x : RegIdx) (b : Byte) : (s.writeV x b).draws = s.draws := rfl
@[simp] theorem State.writeV_memRead (x : RegIdx) (b : Byte) (c : Addr) : (s.writeV x b).memRead c = s.memRead c := rfl

/-! ## memWrite -/

@[simp] theorem State.memWrite_v (a : Addr) (b : Byte) : (s.memWrite a b).v = s.v := rfl
@[simp] theorem State.memWrite_I (a : Addr) (b : Byte) : (s.memWrite a b).I = s.I := rfl
@[simp] theorem State.memWrite_pc (a : Addr) (b : Byte) : (s.memWrite a b).pc = s.pc := rfl
@[simp] theorem State.memWrite_stack (a : Addr) (b : Byte) : (s.memWrite a b).stack = s.stack := rfl
@[simp] theorem State.memWrite_dt (a : Addr) (b : Byte) : (s.memWrite a b).dt = s.dt := rfl
@[simp] theorem State.memWrite_st (a : Addr) (b : Byte) : (s.memWrite a b).st = s.st := rfl
@[simp] theorem State.memWrite_keys (a : Addr) (b : Byte) : (s.memWrite a b).keys = s.keys := rfl
@[simp] theorem State.memWrite_fb (a : Addr) (b : Byte) : (s.memWrite a b).fb = s.fb := rfl
@[simp] theorem State.memWrite_wait (a : Addr) (b : Byte) : (s.memWrite a b).wait = s.wait := rfl
@[simp] theorem State.memWrite_fault (a : Addr) (b : Byte) : (s.memWrite a b).fault = s.fault := rfl
@[simp] theorem State.memWrite_mem (a : Addr) (b : Byte) : (s.memWrite a b).mem = Memory.write s.params.fontset s.mem a.toNat b := rfl
@[simp] theorem State.memWrite_params (a : Addr) (b : Byte) : (s.memWrite a b).params = s.params := rfl
@[simp] theorem State.memWrite_draws (a : Addr) (b : Byte) : (s.memWrite a b).draws = s.draws := rfl
@[simp] theorem State.memWrite_readV (a : Addr) (b : Byte) (r : RegIdx) : (s.memWrite a b).readV r = s.readV r := rfl

/-! ## advance -/

@[simp] theorem State.advance_v : s.advance.v = s.v := rfl
@[simp] theorem State.advance_I : s.advance.I = s.I := rfl
@[simp] theorem State.advance_pc : s.advance.pc = s.pc + 2 := rfl
@[simp] theorem State.advance_stack : s.advance.stack = s.stack := rfl
@[simp] theorem State.advance_dt : s.advance.dt = s.dt := rfl
@[simp] theorem State.advance_st : s.advance.st = s.st := rfl
@[simp] theorem State.advance_keys : s.advance.keys = s.keys := rfl
@[simp] theorem State.advance_fb : s.advance.fb = s.fb := rfl
@[simp] theorem State.advance_wait : s.advance.wait = s.wait := rfl
@[simp] theorem State.advance_fault : s.advance.fault = s.fault := rfl
@[simp] theorem State.advance_mem : s.advance.mem = s.mem := rfl
@[simp] theorem State.advance_params : s.advance.params = s.params := rfl
@[simp] theorem State.advance_draws : s.advance.draws = s.draws := rfl
@[simp] theorem State.advance_readV (r : RegIdx) : s.advance.readV r = s.readV r := rfl
@[simp] theorem State.advance_memRead (c : Addr) : s.advance.memRead c = s.memRead c := rfl

/-! ## jump -/

@[simp] theorem State.jump_v (a : Addr) : (s.jump a).v = s.v := rfl
@[simp] theorem State.jump_I (a : Addr) : (s.jump a).I = s.I := rfl
@[simp] theorem State.jump_pc (a : Addr) : (s.jump a).pc = a := rfl
@[simp] theorem State.jump_stack (a : Addr) : (s.jump a).stack = s.stack := rfl
@[simp] theorem State.jump_dt (a : Addr) : (s.jump a).dt = s.dt := rfl
@[simp] theorem State.jump_st (a : Addr) : (s.jump a).st = s.st := rfl
@[simp] theorem State.jump_keys (a : Addr) : (s.jump a).keys = s.keys := rfl
@[simp] theorem State.jump_fb (a : Addr) : (s.jump a).fb = s.fb := rfl
@[simp] theorem State.jump_wait (a : Addr) : (s.jump a).wait = s.wait := rfl
@[simp] theorem State.jump_fault (a : Addr) : (s.jump a).fault = s.fault := rfl
@[simp] theorem State.jump_mem (a : Addr) : (s.jump a).mem = s.mem := rfl
@[simp] theorem State.jump_params (a : Addr) : (s.jump a).params = s.params := rfl
@[simp] theorem State.jump_draws (a : Addr) : (s.jump a).draws = s.draws := rfl
@[simp] theorem State.jump_readV (a : Addr) (r : RegIdx) : (s.jump a).readV r = s.readV r := rfl
@[simp] theorem State.jump_memRead (a : Addr) (c : Addr) : (s.jump a).memRead c = s.memRead c := rfl

/-! ## push -/

@[simp] theorem State.push_v (a : Addr) : (s.push a).v = s.v := rfl
@[simp] theorem State.push_I (a : Addr) : (s.push a).I = s.I := rfl
@[simp] theorem State.push_pc (a : Addr) : (s.push a).pc = s.pc := rfl
@[simp] theorem State.push_stack (a : Addr) : (s.push a).stack = s.stack ++ [a] := rfl
@[simp] theorem State.push_dt (a : Addr) : (s.push a).dt = s.dt := rfl
@[simp] theorem State.push_st (a : Addr) : (s.push a).st = s.st := rfl
@[simp] theorem State.push_keys (a : Addr) : (s.push a).keys = s.keys := rfl
@[simp] theorem State.push_fb (a : Addr) : (s.push a).fb = s.fb := rfl
@[simp] theorem State.push_wait (a : Addr) : (s.push a).wait = s.wait := rfl
@[simp] theorem State.push_fault (a : Addr) : (s.push a).fault = s.fault := rfl
@[simp] theorem State.push_mem (a : Addr) : (s.push a).mem = s.mem := rfl
@[simp] theorem State.push_params (a : Addr) : (s.push a).params = s.params := rfl
@[simp] theorem State.push_draws (a : Addr) : (s.push a).draws = s.draws := rfl
@[simp] theorem State.push_readV (a : Addr) (r : RegIdx) : (s.push a).readV r = s.readV r := rfl
@[simp] theorem State.push_memRead (a : Addr) (c : Addr) : (s.push a).memRead c = s.memRead c := rfl

/-! ## dropTop -/

@[simp] theorem State.dropTop_v : s.dropTop.v = s.v := rfl
@[simp] theorem State.dropTop_I : s.dropTop.I = s.I := rfl
@[simp] theorem State.dropTop_pc : s.dropTop.pc = s.pc := rfl
@[simp] theorem State.dropTop_stack : s.dropTop.stack = s.stack.dropLast := rfl
@[simp] theorem State.dropTop_dt : s.dropTop.dt = s.dt := rfl
@[simp] theorem State.dropTop_st : s.dropTop.st = s.st := rfl
@[simp] theorem State.dropTop_keys : s.dropTop.keys = s.keys := rfl
@[simp] theorem State.dropTop_fb : s.dropTop.fb = s.fb := rfl
@[simp] theorem State.dropTop_wait : s.dropTop.wait = s.wait := rfl
@[simp] theorem State.dropTop_fault : s.dropTop.fault = s.fault := rfl
@[simp] theorem State.dropTop_mem : s.dropTop.mem = s.mem := rfl
@[simp] theorem State.dropTop_params : s.dropTop.params = s.params := rfl
@[simp] theorem State.dropTop_draws : s.dropTop.draws = s.draws := rfl
@[simp] theorem State.dropTop_readV (r : RegIdx) : s.dropTop.readV r = s.readV r := rfl
@[simp] theorem State.dropTop_memRead (c : Addr) : s.dropTop.memRead c = s.memRead c := rfl

/-! ## drawn -/

@[simp] theorem State.drawn_v : s.drawn.v = s.v := rfl
@[simp] theorem State.drawn_I : s.drawn.I = s.I := rfl
@[simp] theorem State.drawn_pc : s.drawn.pc = s.pc := rfl
@[simp] theorem State.drawn_stack : s.drawn.stack = s.stack := rfl
@[simp] theorem State.drawn_dt : s.drawn.dt = s.dt := rfl
@[simp] theorem State.drawn_st : s.drawn.st = s.st := rfl
@[simp] theorem State.drawn_keys : s.drawn.keys = s.keys := rfl
@[simp] theorem State.drawn_fb : s.drawn.fb = s.fb := rfl
@[simp] theorem State.drawn_wait : s.drawn.wait = s.wait := rfl
@[simp] theorem State.drawn_fault : s.drawn.fault = s.fault := rfl
@[simp] theorem State.drawn_mem : s.drawn.mem = s.mem := rfl
@[simp] theorem State.drawn_params : s.drawn.params = s.params := rfl
@[simp] theorem State.drawn_draws : s.drawn.draws = s.draws + 1 := rfl
@[simp] theorem State.drawn_readV (r : RegIdx) : s.drawn.readV r = s.readV r := rfl
@[simp] theorem State.drawn_memRead (c : Addr) : s.drawn.memRead c = s.memRead c := rfl

/-! ## setI -/

@[simp] theorem State.setI_v (a : Addr) : (s.setI a).v = s.v := rfl
@[simp] theorem State.setI_I (a : Addr) : (s.setI a).I = a := rfl
@[simp] theorem State.setI_pc (a : Addr) : (s.setI a).pc = s.pc := rfl
@[simp] theorem State.setI_stack (a : Addr) : (s.setI a).stack = s.stack := rfl
@[simp] theorem State.setI_dt (a : Addr) : (s.setI a).dt = s.dt := rfl
@[simp] theorem State.setI_st (a : Addr) : (s.setI a).st = s.st := rfl
@[simp] theorem State.setI_keys (a : Addr) : (s.setI a).keys = s.keys := rfl
@[simp] theorem State.setI_fb (a : Addr) : (s.setI a).fb = s.fb := rfl
@[simp] theorem State.setI_wait (a : Addr) : (s.setI a).wait = s.wait := rfl
@[simp] theorem State.setI_fault (a : Addr) : (s.setI a).fault = s.fault := rfl
@[simp] theorem State.setI_mem (a : Addr) : (s.setI a).mem = s.mem := rfl
@[simp] theorem State.setI_params (a : Addr) : (s.setI a).params = s.params := rfl
@[simp] theorem State.setI_draws (a : Addr) : (s.setI a).draws = s.draws := rfl
@[simp] theorem State.setI_readV (a : Addr) (r : RegIdx) : (s.setI a).readV r = s.readV r := rfl
@[simp] theorem State.setI_memRead (a : Addr) (c : Addr) : (s.setI a).memRead c = s.memRead c := rfl

/-! ## setDt -/

@[simp] theorem State.setDt_v (b : Byte) : (s.setDt b).v = s.v := rfl
@[simp] theorem State.setDt_I (b : Byte) : (s.setDt b).I = s.I := rfl
@[simp] theorem State.setDt_pc (b : Byte) : (s.setDt b).pc = s.pc := rfl
@[simp] theorem State.setDt_stack (b : Byte) : (s.setDt b).stack = s.stack := rfl
@[simp] theorem State.setDt_dt (b : Byte) : (s.setDt b).dt = b := rfl
@[simp] theorem State.setDt_st (b : Byte) : (s.setDt b).st = s.st := rfl
@[simp] theorem State.setDt_keys (b : Byte) : (s.setDt b).keys = s.keys := rfl
@[simp] theorem State.setDt_fb (b : Byte) : (s.setDt b).fb = s.fb := rfl
@[simp] theorem State.setDt_wait (b : Byte) : (s.setDt b).wait = s.wait := rfl
@[simp] theorem State.setDt_fault (b : Byte) : (s.setDt b).fault = s.fault := rfl
@[simp] theorem State.setDt_mem (b : Byte) : (s.setDt b).mem = s.mem := rfl
@[simp] theorem State.setDt_params (b : Byte) : (s.setDt b).params = s.params := rfl
@[simp] theorem State.setDt_draws (b : Byte) : (s.setDt b).draws = s.draws := rfl
@[simp] theorem State.setDt_readV (b : Byte) (r : RegIdx) : (s.setDt b).readV r = s.readV r := rfl
@[simp] theorem State.setDt_memRead (b : Byte) (c : Addr) : (s.setDt b).memRead c = s.memRead c := rfl

/-! ## setSt -/

@[simp] theorem State.setSt_v (b : Byte) : (s.setSt b).v = s.v := rfl
@[simp] theorem State.setSt_I (b : Byte) : (s.setSt b).I = s.I := rfl
@[simp] theorem State.setSt_pc (b : Byte) : (s.setSt b).pc = s.pc := rfl
@[simp] theorem State.setSt_stack (b : Byte) : (s.setSt b).stack = s.stack := rfl
@[simp] theorem State.setSt_dt (b : Byte) : (s.setSt b).dt = s.dt := rfl
@[simp] theorem State.setSt_st (b : Byte) : (s.setSt b).st = b := rfl
@[simp] theorem State.setSt_keys (b : Byte) : (s.setSt b).keys = s.keys := rfl
@[simp] theorem State.setSt_fb (b : Byte) : (s.setSt b).fb = s.fb := rfl
@[simp] theorem State.setSt_wait (b : Byte) : (s.setSt b).wait = s.wait := rfl
@[simp] theorem State.setSt_fault (b : Byte) : (s.setSt b).fault = s.fault := rfl
@[simp] theorem State.setSt_mem (b : Byte) : (s.setSt b).mem = s.mem := rfl
@[simp] theorem State.setSt_params (b : Byte) : (s.setSt b).params = s.params := rfl
@[simp] theorem State.setSt_draws (b : Byte) : (s.setSt b).draws = s.draws := rfl
@[simp] theorem State.setSt_readV (b : Byte) (r : RegIdx) : (s.setSt b).readV r = s.readV r := rfl
@[simp] theorem State.setSt_memRead (b : Byte) (c : Addr) : (s.setSt b).memRead c = s.memRead c := rfl

/-! ## setWait -/

@[simp] theorem State.setWait_v (w : Option RegIdx) : (s.setWait w).v = s.v := rfl
@[simp] theorem State.setWait_I (w : Option RegIdx) : (s.setWait w).I = s.I := rfl
@[simp] theorem State.setWait_pc (w : Option RegIdx) : (s.setWait w).pc = s.pc := rfl
@[simp] theorem State.setWait_stack (w : Option RegIdx) : (s.setWait w).stack = s.stack := rfl
@[simp] theorem State.setWait_dt (w : Option RegIdx) : (s.setWait w).dt = s.dt := rfl
@[simp] theorem State.setWait_st (w : Option RegIdx) : (s.setWait w).st = s.st := rfl
@[simp] theorem State.setWait_keys (w : Option RegIdx) : (s.setWait w).keys = s.keys := rfl
@[simp] theorem State.setWait_fb (w : Option RegIdx) : (s.setWait w).fb = s.fb := rfl
@[simp] theorem State.setWait_wait (w : Option RegIdx) : (s.setWait w).wait = w := rfl
@[simp] theorem State.setWait_fault (w : Option RegIdx) : (s.setWait w).fault = s.fault := rfl
@[simp] theorem State.setWait_mem (w : Option RegIdx) : (s.setWait w).mem = s.mem := rfl
@[simp] theorem State.setWait_params (w : Option RegIdx) : (s.setWait w).params = s.params := rfl
@[simp] theorem State.setWait_draws (w : Option RegIdx) : (s.setWait w).draws = s.draws := rfl
@[simp] theorem State.setWait_readV (w : Option RegIdx) (r : RegIdx) : (s.setWait w).readV r = s.readV r := rfl
@[simp] theorem State.setWait_memRead (w : Option RegIdx) (c : Addr) : (s.setWait w).memRead c = s.memRead c := rfl

/-! ## setFb -/

@[simp] theorem State.setFb_v (u : Framebuffer) : (s.setFb u).v = s.v := rfl
@[simp] theorem State.setFb_I (u : Framebuffer) : (s.setFb u).I = s.I := rfl
@[simp] theorem State.setFb_pc (u : Framebuffer) : (s.setFb u).pc = s.pc := rfl
@[simp] theorem State.setFb_stack (u : Framebuffer) : (s.setFb u).stack = s.stack := rfl
@[simp] theorem State.setFb_dt (u : Framebuffer) : (s.setFb u).dt = s.dt := rfl
@[simp] theorem State.setFb_st (u : Framebuffer) : (s.setFb u).st = s.st := rfl
@[simp] theorem State.setFb_keys (u : Framebuffer) : (s.setFb u).keys = s.keys := rfl
@[simp] theorem State.setFb_fb (u : Framebuffer) : (s.setFb u).fb = u := rfl
@[simp] theorem State.setFb_wait (u : Framebuffer) : (s.setFb u).wait = s.wait := rfl
@[simp] theorem State.setFb_fault (u : Framebuffer) : (s.setFb u).fault = s.fault := rfl
@[simp] theorem State.setFb_mem (u : Framebuffer) : (s.setFb u).mem = s.mem := rfl
@[simp] theorem State.setFb_params (u : Framebuffer) : (s.setFb u).params = s.params := rfl
@[simp] theorem State.setFb_draws (u : Framebuffer) : (s.setFb u).draws = s.draws := rfl
@[simp] theorem State.setFb_readV (u : Framebuffer) (r : RegIdx) : (s.setFb u).readV r = s.readV r := rfl
@[simp] theorem State.setFb_memRead (u : Framebuffer) (c : Addr) : (s.setFb u).memRead c = s.memRead c := rfl

/-! ## tickTimers -/

@[simp] theorem tickTimers_v : (tickTimers s).v = s.v := rfl
@[simp] theorem tickTimers_I : (tickTimers s).I = s.I := rfl
@[simp] theorem tickTimers_pc : (tickTimers s).pc = s.pc := rfl
@[simp] theorem tickTimers_stack : (tickTimers s).stack = s.stack := rfl
@[simp] theorem tickTimers_dt : (tickTimers s).dt = tick s.dt := rfl
@[simp] theorem tickTimers_st : (tickTimers s).st = tick s.st := rfl
@[simp] theorem tickTimers_keys : (tickTimers s).keys = s.keys := rfl
@[simp] theorem tickTimers_fb : (tickTimers s).fb = s.fb := rfl
@[simp] theorem tickTimers_wait : (tickTimers s).wait = s.wait := rfl
@[simp] theorem tickTimers_fault : (tickTimers s).fault = s.fault := rfl
@[simp] theorem tickTimers_mem : (tickTimers s).mem = s.mem := rfl
@[simp] theorem tickTimers_params : (tickTimers s).params = s.params := rfl
@[simp] theorem tickTimers_draws : (tickTimers s).draws = s.draws := rfl
@[simp] theorem tickTimers_readV (r : RegIdx) : (tickTimers s).readV r = s.readV r := rfl
@[simp] theorem tickTimers_memRead (c : Addr) : (tickTimers s).memRead c = s.memRead c := rfl
@[simp] theorem tickTimers_fetchWord : (tickTimers s).fetchWord = s.fetchWord := rfl

/-! ## setPressed -/

@[simp] theorem setPressed_v (k : KeyIdx) : (setPressed k s).v = s.v := rfl
@[simp] theorem setPressed_I (k : KeyIdx) : (setPressed k s).I = s.I := rfl
@[simp] theorem setPressed_pc (k : KeyIdx) : (setPressed k s).pc = s.pc := rfl
@[simp] theorem setPressed_stack (k : KeyIdx) : (setPressed k s).stack = s.stack := rfl
@[simp] theorem setPressed_dt (k : KeyIdx) : (setPressed k s).dt = s.dt := rfl
@[simp] theorem setPressed_st (k : KeyIdx) : (setPressed k s).st = s.st := rfl
@[simp] theorem setPressed_keys (k : KeyIdx) : (setPressed k s).keys = s.keys ||| BitVec.twoPow 16 k.toNat := rfl
@[simp] theorem setPressed_fb (k : KeyIdx) : (setPressed k s).fb = s.fb := rfl
@[simp] theorem setPressed_wait (k : KeyIdx) : (setPressed k s).wait = s.wait := rfl
@[simp] theorem setPressed_fault (k : KeyIdx) : (setPressed k s).fault = s.fault := rfl
@[simp] theorem setPressed_mem (k : KeyIdx) : (setPressed k s).mem = s.mem := rfl
@[simp] theorem setPressed_params (k : KeyIdx) : (setPressed k s).params = s.params := rfl
@[simp] theorem setPressed_draws (k : KeyIdx) : (setPressed k s).draws = s.draws := rfl
@[simp] theorem setPressed_readV (k : KeyIdx) (r : RegIdx) : (setPressed k s).readV r = s.readV r := rfl
@[simp] theorem setPressed_memRead (k : KeyIdx) (c : Addr) : (setPressed k s).memRead c = s.memRead c := rfl
@[simp] theorem setPressed_fetchWord (k : KeyIdx) : (setPressed k s).fetchWord = s.fetchWord := rfl

/-! ## setReleased -/

@[simp] theorem setReleased_v (k : KeyIdx) : (setReleased k s).v = s.v := rfl
@[simp] theorem setReleased_I (k : KeyIdx) : (setReleased k s).I = s.I := rfl
@[simp] theorem setReleased_pc (k : KeyIdx) : (setReleased k s).pc = s.pc := rfl
@[simp] theorem setReleased_stack (k : KeyIdx) : (setReleased k s).stack = s.stack := rfl
@[simp] theorem setReleased_dt (k : KeyIdx) : (setReleased k s).dt = s.dt := rfl
@[simp] theorem setReleased_st (k : KeyIdx) : (setReleased k s).st = s.st := rfl
@[simp] theorem setReleased_keys (k : KeyIdx) : (setReleased k s).keys = s.keys &&& ~~~(BitVec.twoPow 16 k.toNat) := rfl
@[simp] theorem setReleased_fb (k : KeyIdx) : (setReleased k s).fb = s.fb := rfl
@[simp] theorem setReleased_wait (k : KeyIdx) : (setReleased k s).wait = s.wait := rfl
@[simp] theorem setReleased_fault (k : KeyIdx) : (setReleased k s).fault = s.fault := rfl
@[simp] theorem setReleased_mem (k : KeyIdx) : (setReleased k s).mem = s.mem := rfl
@[simp] theorem setReleased_params (k : KeyIdx) : (setReleased k s).params = s.params := rfl
@[simp] theorem setReleased_draws (k : KeyIdx) : (setReleased k s).draws = s.draws := rfl
@[simp] theorem setReleased_readV (k : KeyIdx) (r : RegIdx) : (setReleased k s).readV r = s.readV r := rfl
@[simp] theorem setReleased_memRead (k : KeyIdx) (c : Addr) : (setReleased k s).memRead c = s.memRead c := rfl
@[simp] theorem setReleased_fetchWord (k : KeyIdx) : (setReleased k s).fetchWord = s.fetchWord := rfl

end Sys2Proof.Machine
end

