-- ==== Sys2Proof/Laws/Memory.lean ====
section
/-! SUPPORT. The memory: reading after writing, and the canonical form, which every operation keeps. -/

namespace Sys2Proof.Machine

variable (font : Vector Byte 80)

/-! ## Reading -/

theorem Memory.read_put (m : Memory) (a : Nat) (b : Byte) (c : Nat) :
    Memory.read font (Memory.put a b m) c = if c = a then b else Memory.read font m c := by
  induction m with
  | nil => simp [Memory.put, Memory.read, eq_comm]
  | cons d rest ih =>
    simp only [Memory.put]
    split
    · simp [Memory.read, eq_comm]
    · split
      · next h => subst h; by_cases hc : c = d.1 <;> simp [Memory.read, hc, eq_comm]
      · next h => by_cases hc : d.1 = c <;> simp_all [Memory.read, eq_comm]

theorem Memory.read_unlist (m : Memory) (a c : Nat) :
    Memory.read font (Memory.unlist a m) c =
      if c = a then Memory.constructed font a else Memory.read font m c := by
  induction m with
  | nil => by_cases h : c = a <;> simp [Memory.unlist, Memory.read, h]
  | cons d rest ih =>
    simp only [Memory.unlist, Memory.read]
    split
    · next h => rw [ih]; by_cases hc : c = a <;> simp [hc, ← h]; omega
    · next h => rw [Memory.read, ih]; by_cases hd : d.1 = c <;> simp [hd]; omega

/-- Reading after writing, whatever the list. -/
theorem Memory.read_write (m : Memory) (a : Nat) (b : Byte) (c : Nat) :
    Memory.read font (Memory.write font m a b) c = if c = a then b else Memory.read font m c := by
  unfold Memory.write
  split
  · next h => rw [Memory.read_unlist, h]
  · exact Memory.read_put font m a b c

/-- The one law of `memWrite`: the written byte there, every other byte as before. -/
@[simp] theorem State.memRead_memWrite (s : State) (a : Addr) (b : Byte) (c : Addr) :
    (s.memWrite a b).memRead c = if c = a then b else s.memRead c := by
  simp only [State.memRead, State.memWrite, Memory.read_write, BitVec.toNat_inj]

/-! ## The canonical form -/

theorem Memory.mem_put (m : Memory) (a : Nat) (b : Byte) (c : Host.Cell) (h : c ∈ Memory.put a b m) :
    c = (a, b) ∨ c ∈ m := by
  induction m with
  | nil => simpa [Memory.put] using h
  | cons d rest ih =>
    simp only [Memory.put] at h
    split at h
    · simpa using h
    · split at h
      · simp only [List.mem_cons] at h ⊢; tauto
      · simp only [List.mem_cons] at h ⊢; tauto

theorem Memory.mem_unlist (m : Memory) (a : Nat) (c : Host.Cell) (h : c ∈ Memory.unlist a m) : c ∈ m := by
  induction m with
  | nil => simp [Memory.unlist] at h
  | cons d rest ih =>
    simp only [Memory.unlist] at h
    split at h
    · exact List.mem_cons_of_mem _ (ih h)
    · simp only [List.mem_cons] at h ⊢; tauto

theorem Memory.put_rising (m : Memory) (a : Nat) (b : Byte) (hm : m.Pairwise (fun c d => c.1 < d.1)) :
    (Memory.put a b m).Pairwise (fun c d => c.1 < d.1) := by
  induction m with
  | nil => simp [Memory.put]
  | cons d rest ih =>
    have ⟨hd, hr⟩ := List.pairwise_cons.mp hm
    simp only [Memory.put]
    split
    · next h =>
      refine List.pairwise_cons.mpr ⟨fun c hc => ?_, hm⟩
      rcases List.mem_cons.mp hc with rfl | hc
      · exact h
      · exact Nat.lt_trans h (hd c hc)
    · split
      · next h => exact List.pairwise_cons.mpr ⟨fun c hc => h ▸ hd c hc, hr⟩
      · next h1 h2 =>
        refine List.pairwise_cons.mpr ⟨fun c hc => ?_, ih hr⟩
        rcases Memory.mem_put rest a b c hc with rfl | hc
        · show d.1 < a; omega
        · exact hd c hc

theorem Memory.unlist_rising (m : Memory) (a : Nat) (hm : m.Pairwise (fun c d => c.1 < d.1)) :
    (Memory.unlist a m).Pairwise (fun c d => c.1 < d.1) := by
  induction m with
  | nil => simp [Memory.unlist]
  | cons d rest ih =>
    have ⟨hd, hr⟩ := List.pairwise_cons.mp hm
    simp only [Memory.unlist]
    split
    · exact ih hr
    · exact List.pairwise_cons.mpr ⟨fun c hc => hd c (Memory.mem_unlist rest a c hc), ih hr⟩

/-- Every write keeps the canonical form. -/
theorem Memory.write_wf (m : Memory) (a : Nat) (b : Byte) (ha : a < Config.memSize) (hm : Memory.wf font m) :
    Memory.wf font (Memory.write font m a b) := by
  unfold Memory.write
  split
  · exact ⟨Memory.unlist_rising m a hm.1, fun c hc => hm.2 c (Memory.mem_unlist m a c hc)⟩
  · next h =>
    refine ⟨Memory.put_rising m a b hm.1, fun c hc => ?_⟩
    rcases Memory.mem_put m a b c hc with rfl | hc
    · exact ⟨ha, h⟩
    · exact hm.2 c hc

/-- The empty memory, that of reset, is canonical. -/
theorem Memory.nil_wf : Memory.wf font [] := by simp [Memory.wf]

/-- `memWrite` keeps the canonical form. -/
theorem State.memWrite_wf (s : State) (a : Addr) (b : Byte) (h : Memory.wf s.params.fontset s.mem) :
    Memory.wf s.params.fontset (s.memWrite a b).mem :=
  Memory.write_wf _ _ _ _ a.isLt h

/-- `storeBytes` keeps the canonical form, and changes no field but `mem`. -/
theorem State.storeBytes_wf (bs : List Byte) (s : State) (a : Addr) (h : Memory.wf s.params.fontset s.mem) :
    Memory.wf s.params.fontset (s.storeBytes a bs).mem := by
  induction bs generalizing s a with
  | nil => exact h
  | cons b bs ih => exact ih (s.memWrite a b) (a + 1) (s.memWrite_wf a b h)

/-- An address below every listed one reads as it was constructed. -/
theorem Memory.read_of_lt (m : Memory) (a : Nat) (h : ∀ c ∈ m, a < c.1) :
    Memory.read font m a = Memory.constructed font a := by
  induction m with
  | nil => rfl
  | cons d rest ih =>
    have hd := h d (by simp)
    rw [Memory.read, if_neg (by omega), ih (fun c hc => h c (by simp [hc]))]

/-! ## Several stores -/

/-- All that `storeBytes` does to any field but memory: nothing. -/
theorem State.storeBytes_eq (bs : List Byte) (s : State) (a : Addr) :
    s.storeBytes a bs = { s with mem := (s.storeBytes a bs).mem } := by
  induction bs generalizing s a with
  | nil => rfl
  | cons b bs ih => rw [State.storeBytes, ih]; rfl

/-- The law of `storeBytes`: the byte at `a + k` is the k-th stored one, every other byte is as before. -/
theorem State.memRead_storeBytes (bs : List Byte) (s : State) (a c : Addr) (h : bs.length ≤ 4096) :
    (s.storeBytes a bs).memRead c =
      if hk : (c - a).toNat < bs.length then bs[(c - a).toNat] else s.memRead c := by
  induction bs generalizing s a with
  | nil => simp [State.storeBytes]
  | cons b bs ih =>
    rw [State.storeBytes, ih _ _ (by simp at h; omega), State.memRead_memWrite]
    simp only [List.length_cons] at h ⊢
    by_cases hc : c = a
    · subst hc
      have : (c - (c + 1)).toNat = 4095 := by simp
      simp only [this, BitVec.sub_self]
      rw [dif_neg (by omega)]
      simp
    · have h1 : (c - a).toNat = (c - (a + 1)).toNat + 1 := by
        have : c.toNat ≠ a.toNat := fun h => hc (BitVec.eq_of_toNat_eq h)
        have := c.isLt; have := a.isLt
        simp [BitVec.toNat_sub, BitVec.toNat_add]; omega
      simp [h1, hc]

end Sys2Proof.Machine
end

