-- ==== Sys2Proof/Laws/Ops.lean ====
section
/-! SUPPORT. One law for each shared operation on registers, flags, skips, loads, keys and pixels: all that it can
do, so that a proof cites it instead of unfolding the operation. -/

namespace Sys2Proof.Machine

/-! ## Registers -/

/-- The law of `writeV`. -/
@[simp] theorem State.readV_writeV (s : State) (x r : RegIdx) (b : Byte) :
    (s.writeV x b).readV r = if r = x then b else s.readV r := by
  simp only [State.readV, State.writeV, Vector.getElem_set, ← BitVec.toNat_inj, eq_comm]

/-- The law of `writeResultAndFlag`: the flag in VF, and the result in V[x] unless x is VF. -/
@[simp] theorem State.readV_writeResultAndFlag (s : State) (x r : RegIdx) (b : Byte) (c : Bool) :
    (s.writeResultAndFlag x b c).readV r =
      if r = regF then flagByte c else if r = x then b else s.readV r := by
  simp [State.writeResultAndFlag]

/-- All that `writeResultAndFlag` does to any field but the registers: nothing. -/
theorem State.writeResultAndFlag_eq (s : State) (x : RegIdx) (b : Byte) (c : Bool) :
    s.writeResultAndFlag x b c = { s with v := (s.writeResultAndFlag x b c).v } := rfl

/-- All that `loadRegs` does to any field but the registers: nothing. -/
theorem State.loadRegs_eq (s : State) (n : Nat) : s.loadRegs n = { s with v := (s.loadRegs n).v } := by
  induction n with
  | zero => rfl
  | succ k ih => rw [State.loadRegs, ih]; rfl

/-- The law of `loadRegs`: V[r] from I + r for r below `n`, the other registers as before. -/
theorem State.readV_loadRegs (s : State) (n : Nat) (hn : n ≤ 16) (r : RegIdx) :
    (s.loadRegs n).readV r = if r.toNat < n then s.memRead (s.indexAddr r.toNat) else s.readV r := by
  induction n with
  | zero => simp [State.loadRegs]
  | succ k ih =>
    rw [State.loadRegs, State.readV_writeV, ih (by omega)]
    have hk : (BitVec.ofNat 4 k).toNat = k := by simp; omega
    by_cases h : r = BitVec.ofNat 4 k
    · subst h; simp only [hk]; simp
    · have : r.toNat ≠ k := fun e => h (BitVec.eq_of_toNat_eq (by rw [hk, e]))
      rw [if_neg h]
      by_cases h2 : r.toNat < k
      · rw [if_pos h2, if_pos (by omega)]
      · rw [if_neg h2, if_neg (by omega)]

@[simp] theorem State.length_regsUpTo (s : State) (x : RegIdx) : (s.regsUpTo x).length = x.toNat + 1 := by
  simp [State.regsUpTo]

theorem State.getElem_regsUpTo (s : State) (x : RegIdx) (k : Nat) (h : k < (s.regsUpTo x).length) :
    (s.regsUpTo x)[k] = s.readV (BitVec.ofNat 4 k) := by
  simp [State.regsUpTo]

/-! ## Flags -/

theorem flagByte_eq (c : Bool) : flagByte c = if c then 1 else 0 := rfl

@[simp] theorem toNat_flagByte (c : Bool) : (flagByte c).toNat = c.toNat := by cases c <;> rfl

theorem lowBitFlag_toNat (a : Byte) : (lowBitFlag a).toNat = a.toNat % 2 := by
  simp [lowBitFlag, BitVec.getLsbD, Nat.testBit_zero]
  rcases Nat.mod_two_eq_zero_or_one a.toNat with h | h <;> simp [h]

theorem highBitFlag_toNat (a : Byte) : (highBitFlag a).toNat = a.toNat / 128 := by
  revert a; decide

/-! ## Skips and the stack -/

@[simp] theorem State.skipIf_true (s : State) : s.skipIf true = s.advance := rfl

@[simp] theorem State.skipIf_false (s : State) : s.skipIf false = s := rfl

/-- All that `skipIf` does: pc, and nothing else. -/
theorem State.skipIf_eq (s : State) (c : Bool) :
    s.skipIf c = { s with pc := if c then s.pc + 2 else s.pc } := by
  cases c <;> rfl

theorem State.stackFull_iff (s : State) :
    s.stackFull = true ↔ s.params.stackDepth = some s.stack.length := by
  unfold State.stackFull
  cases s.params.stackDepth with
  | none => simp
  | some d => rw [beq_iff_eq, Option.some.injEq, eq_comm]

/-! ## Keys -/

/-- The law of `lowestKey`: the least k whose bit is set, and none exactly for the zero vector. -/
theorem lowestKey_some (keys : BitVec 16) (k : Nat) (h : lowestKey keys = some k) :
    k < 16 ∧ keys.getLsbD k = true ∧ ∀ j, j < k → keys.getLsbD j = false := by
  unfold lowestKey at h
  have hk := List.find?_some h
  have hm := List.mem_of_find?_eq_some h
  simp only [List.mem_range] at hm
  refine ⟨hm, hk, fun j hj => ?_⟩
  rw [List.find?_range_eq_some] at h
  simpa using h.2.2 j hj

theorem lowestKey_none (keys : BitVec 16) : lowestKey keys = none ↔ keys = 0 := by
  unfold lowestKey
  rw [List.find?_eq_none]
  simp only [List.mem_range]
  constructor
  · intro h
    apply BitVec.eq_of_getLsbD_eq
    intro i hi
    simpa using h i hi
  · rintro rfl; simp

/-- The key test of an index below 16. -/
theorem keyTest_inRange (policy : KeyIndexPolicy) (keys : BitVec 16) (k : Byte) (h : k.toNat < 16) :
    keyTest policy keys k = .state (keys.getLsbD k.toNat) := by
  simp [keyTest, h]

/-- The key test of an index of 16 or more, by the policy. -/
theorem keyTest_fault (keys : BitVec 16) (k : Byte) (h : 16 ≤ k.toNat) :
    keyTest .fault keys k = .outOfRange := by
  simp [keyTest, Nat.not_lt.mpr h]

theorem keyTest_mask (keys : BitVec 16) (k : Byte) (h : 16 ≤ k.toNat) :
    keyTest .mask keys k = .state (keys.getLsbD (k.toNat % 16)) := by
  have m : (k &&& 0xF).toNat = k.toNat % 16 := by revert k; decide
  simp only [keyTest, Nat.not_lt.mpr h, if_false, m]

theorem keyTest_notPressed (keys : BitVec 16) (k : Byte) (h : 16 ≤ k.toNat) :
    keyTest .notPressed keys k = .state false := by
  simp [keyTest, Nat.not_lt.mpr h]

/-! ## Pixels -/

/-- The law of `flipPixel`: that pixel changes, no other does. -/
theorem pixel_flipPixel (fb : Framebuffer) (x y a b : Nat) :
    pixel (flipPixel fb x y) a b = (decide (a % 64 = x % 64 ∧ b % 32 = y % 32) ^^ pixel fb a b) := by
  unfold pixel flipPixel
  rw [Vector.getElem_set]
  by_cases hy : y % 32 = b % 32
  · rw [if_pos hy]
    simp only [hy, BitVec.getLsbD_xor, BitVec.getLsbD_twoPow]
    have : a % 64 < 64 := Nat.mod_lt _ (by decide)
    by_cases hx : a % 64 = x % 64
    · simp [hx, Nat.mod_lt]
    · simp [hx, Ne.symm hx]
  · rw [if_neg hy]; simp [Ne.symm hy]

/-! ## Sprite draws -/

/-- `d` is `c` with exactly the pixels of `P` flipped, and with a collision noted when one of them was 1 in `c`. -/
structure Draws (P : Nat → Nat → Prop) (c d : Canvas) : Prop where
  flips : ∀ px py, P px py → pixel d.fb px py = !pixel c.fb px py
  keeps : ∀ px py, ¬ P px py → pixel d.fb px py = pixel c.fb px py
  collides : d.collision = true ↔ c.collision = true ∨ ∃ px py, P px py ∧ pixel c.fb px py = true

theorem Draws.congr (P Q : Nat → Nat → Prop) (c d : Canvas) (h : ∀ px py, P px py ↔ Q px py) (hd : Draws P c d) :
    Draws Q c d := by
  have : P = Q := funext fun px => funext fun py => propext (h px py)
  exact this ▸ hd

theorem Draws.nothing (c : Canvas) : Draws (fun _ _ => False) c c :=
  ⟨fun _ _ h => h.elim, fun _ _ _ => rfl, by simp⟩

/-- Two draws that touch no pixel in common are one draw of both, in either order (R152). -/
theorem Draws.andThen (P Q : Nat → Nat → Prop) (c d e : Canvas) (hP : Draws P c d) (hQ : Draws Q d e)
    (disjoint : ∀ px py, P px py → ¬ Q px py) : Draws (fun px py => Q px py ∨ P px py) c e where
  flips px py h := by
    rcases h with h | h
    · rw [hQ.flips px py h, hP.keeps px py (fun hp => disjoint px py hp h)]
    · rw [hQ.keeps px py (disjoint px py h), hP.flips px py h]
  keeps px py h := by
    rw [hQ.keeps px py (fun hq => h (.inl hq)), hP.keeps px py (fun hp => h (.inr hp))]
  collides := by
    have untouched (px py : Nat) (h : Q px py) : pixel d.fb px py = pixel c.fb px py :=
      hP.keeps px py (fun hp => disjoint px py hp h)
    rw [hQ.collides, hP.collides]
    constructor
    · rintro ((h | ⟨px, py, h, hb⟩) | ⟨px, py, h, hb⟩)
      · exact .inl h
      · exact .inr ⟨px, py, .inr h, hb⟩
      · exact .inr ⟨px, py, .inl h, untouched px py h ▸ hb⟩
    · rintro (h | ⟨px, py, h | h, hb⟩)
      · exact .inl (.inl h)
      · exact .inr ⟨px, py, h, (untouched px py h).trans hb⟩
      · exact .inl (.inr ⟨px, py, h, hb⟩)

/-- `pixel` reads its coordinates modulo the grid. -/
theorem pixel_congr (fb : Framebuffer) (a b x y : Nat) (hx : a % 64 = x % 64) (hy : b % 32 = y % 32) :
    pixel fb a b = pixel fb x y := by
  simp only [pixel, hx, hy]

/-- The law of `blitPixel`. -/
theorem blitPixel_draws (c : Canvas) (bit : Bool) (x y : Nat) :
    Draws (fun px py => bit = true ∧ px % 64 = x % 64 ∧ py % 32 = y % 32) c (blitPixel c bit x y) := by
  cases bit with
  | false => exact Draws.congr _ _ c c (by simp) (Draws.nothing c)
  | true =>
    refine ⟨fun px py h => ?_, fun px py h => ?_, ?_⟩
    · simp [blitPixel, pixel_flipPixel, h.2.1, h.2.2]
    · simp only [true_and] at h; simp [blitPixel, pixel_flipPixel, h]
    · simp only [blitPixel, if_true, Bool.or_eq_true, true_and]
      constructor
      · rintro (h | h)
        · exact .inl h
        · exact .inr ⟨x, y, ⟨rfl, rfl⟩, h⟩
      · rintro (h | ⟨px, py, h, hb⟩)
        · exact .inl h
        · exact .inr (pixel_congr c.fb px py x y h.1 h.2 ▸ hb)

/-- A bounded search, split at its last candidate. -/
theorem exists_lt_succ (m : Nat) (P : Nat → Prop) :
    (∃ k, k < m + 1 ∧ P k) ↔ P m ∨ ∃ k, k < m ∧ P k := by
  constructor
  · rintro ⟨k, h, hp⟩
    rcases Nat.lt_succ_iff_lt_or_eq.mp h with h | rfl
    · exact .inr ⟨k, h, hp⟩
    · exact .inl hp
  · rintro (h | ⟨k, h, hp⟩)
    · exact ⟨m, by omega, h⟩
    · exact ⟨k, by omega, hp⟩

/-- One sprite row, for its first `m` columns: its columns are distinct modulo 64. -/
theorem blitColumns_draws (c : Canvas) (b : Byte) (cx y m : Nat) (hm : m ≤ 8) :
    Draws (fun px py => ∃ col, col < m ∧ spriteBit b col = true ∧ px % 64 = (cx + col) % 64 ∧ py % 32 = y % 32) c
      ((List.range m).foldl (fun c col => blitPixel c (spriteBit b col) (cx + col) y) c) := by
  induction m with
  | zero => exact Draws.congr _ _ _ _ (by simp) (Draws.nothing c)
  | succ m ih =>
    rw [List.range_succ, List.foldl_append]
    refine Draws.congr _ _ _ _ (fun px py => (exists_lt_succ m _).symm)
      (Draws.andThen _ _ _ _ _ (ih (by omega)) (blitPixel_draws _ _ _ _) ?_)
    rintro px py ⟨col, h, -, h1, -⟩ ⟨-, h2, -⟩
    omega

/-- The law of `blitRow`. -/
theorem blitRow_draws (c : Canvas) (b : Byte) (cx y : Nat) :
    Draws (fun px py => ∃ col, col < 8 ∧ spriteBit b col = true ∧ px % 64 = (cx + col) % 64 ∧ py % 32 = y % 32) c
      (blitRow c b cx y) :=
  blitColumns_draws c b cx y 8 (Nat.le_refl 8)

/-- The law of `blitRows`: the rows are distinct modulo 32, so a draw of up to 32 of them flips exactly the pixels a
set bit lands on, each once (R151, R152). -/
theorem blitRows_draws (s : State) (cx cy n : Nat) (hn : n ≤ 32) :
    Draws (fun px py => ∃ row, row < n ∧ ∃ col, col < 8 ∧ spriteBit (s.memRead (s.indexAddr row)) col = true ∧
      px % 64 = (cx + col) % 64 ∧ py % 32 = (cy + row) % 32) ⟨s.fb, false⟩ (blitRows s cx cy n) := by
  induction n with
  | zero => exact Draws.congr _ _ _ _ (by simp) (Draws.nothing _)
  | succ n ih =>
    refine Draws.congr _ _ _ _ (fun px py => (exists_lt_succ n _).symm)
      (Draws.andThen _ _ _ _ _ (ih (by omega)) (blitRow_draws _ _ _ _) ?_)
    rintro px py ⟨row, h, -, -, -, -, h1⟩ ⟨-, -, -, -, h2⟩
    omega

@[simp] theorem pixel_clearFramebuffer (x y : Nat) : pixel clearFramebuffer x y = false := by
  simp [pixel, clearFramebuffer]

end Sys2Proof.Machine
end

