-- ==== Sys2Proof/Laws/Step.lean ====
section
/-! SUPPORT. What a step can do, said once: one equation for each kind of cycle (spec/40_cycle.md R90), and that every
instruction goes on to a next state. -/

namespace Sys2Proof.Machine

theorem step_latched (s : State) (r : FaultRecord) (h : s.fault = some r) : step s = .next s := by
  simp only [step, cycle, h, latchedCycle]

theorem step_waiting (s : State) (r : RegIdx) (hf : s.fault = none) (hw : s.wait = some r) :
    step s = waitingCycle r s := by
  simp only [step, cycle, hf, hw]

theorem step_executing (s : State) (hf : s.fault = none) (hw : s.wait = none) :
    step s = executingCycle s := by
  simp only [step, cycle, hf, hw]

/-- The two outcomes of a waiting cycle (R91). -/
theorem waitingCycle_cases (r : RegIdx) (s t : State) (h : waitingCycle r s = .next t) :
    (∃ k, lowestKey s.keys = some k ∧ t = (s.writeV r (BitVec.ofNat 8 k)).setWait none) ∨
      (lowestKey s.keys = none ∧ t = s) := by
  unfold waitingCycle at h
  split at h
  · next k hk => cases h; exact .inl ⟨k, hk, rfl⟩
  · next hk => cases h; exact .inr ⟨hk, rfl⟩

/-- No instruction stops: `exec` answers a next state for every instruction in every state. -/
theorem exec_next (i : Instr) (s : State) : ∃ t, exec i s = .next t := by
  cases i with
  | ret => simp only [exec, execRet, State.raise]; split <;> exact ⟨_, rfl⟩
  | call nnn => simp only [exec, execCall, State.raise]; split <;> exact ⟨_, rfl⟩
  | skp x => simp only [exec, execSkp, State.raise]; split <;> exact ⟨_, rfl⟩
  | sknp x => simp only [exec, execSknp, State.raise]; split <;> exact ⟨_, rfl⟩
  | _ => exact ⟨_, rfl⟩

/-- Undoing the advance gives the state back, but for the latch: what a fault leaves (R97). -/
theorem raise_advance (s : State) (code : Fault) (op : Word) :
    s.advance.raise code op = .next { s with fault := some { code := code, pc := s.pc, opcode := op } } := by
  have h : s.pc + 2 - 2 = s.pc := BitVec.add_sub_cancel _ _
  simp only [State.raise, State.advance, h]

/-- A placed word is the next one fetched. -/
theorem fetchWord_placeWord (s : State) (w : Word) : (s.placeWord w).fetchWord = w := by
  have h : s.pc ≠ s.pc + 1 := by
    intro h
    have := congrArg BitVec.toNat h
    simp only [BitVec.toNat_add, BitVec.reduceToNat, Nat.reducePow] at this
    omega
  have hi : (s.placeWord w).memRead s.pc = w.extractLsb' 8 8 := by
    show (((s.memWrite s.pc _).memWrite (s.pc + 1) _).memRead s.pc) = _
    rw [State.memRead_memWrite, if_neg h, State.memRead_memWrite, if_pos rfl]
  have lo : (s.placeWord w).memRead (s.pc + 1) = w.extractLsb' 0 8 := by
    show (((s.memWrite s.pc _).memWrite (s.pc + 1) _).memRead (s.pc + 1)) = _
    rw [State.memRead_memWrite, if_pos rfl]
  show wordOfBytes ((s.placeWord w).memRead s.pc) ((s.placeWord w).memRead (s.pc + 1)) = w
  rw [hi, lo, wordOfBytes_bytes]

/-- `withFetchWord` does what its name says: the next step is the word's executing cycle. -/
theorem step_withFetchWord (s : State) (nbits w : Nat) :
    step (s.withFetchWord nbits w) = executingCycle (s.withFetchWord nbits w) ∧
      (s.withFetchWord nbits w).fetchWord = tableWord nbits w :=
  ⟨step_executing _ rfl rfl, fetchWord_placeWord s _⟩

end Sys2Proof.Machine
end

