-- ==== Sys2Proof/Laws/Host.lean ====
section
/-! SUPPORT. What a host operation can do, said once (spec/60_exceptions.md R219): one case for each operation, two for
`load_rom`, with the state it leaves and the result it returns. -/

namespace Sys2Proof.Machine

/-- All that a host operation can do. -/
theorem HostOp.apply_cases (op : HostOp) (s t : State) (r : HostResult) (h : op.apply s = .next (t, r)) :
    (∃ bytes, op = .loadRom bytes ∧ romFits bytes = true ∧ t = s.storeBytes Config.romBase bytes ∧ r = .ok) ∨
    (∃ bytes, op = .loadRom bytes ∧ romFits bytes = false ∧ t = s ∧ r = .invalidRom) ∨
    (op = .cycle ∧ step s = .next t ∧ r = t.cycleResult.toHost) ∨
    (op = .tickTimers ∧ t = Machine.tickTimers s ∧ r = .none) ∨
    (∃ k, op = .setPressed k ∧ t = Machine.setPressed k s ∧ r = .none) ∨
    (∃ k, op = .setReleased k ∧ t = Machine.setReleased k s ∧ r = .none) ∨
    (∃ x y, op = .get x y ∧ t = s ∧ r = .pixel (getPixel x y s)) := by
  cases op with
  | loadRom bytes =>
    cases hfit : romFits bytes with
    | true =>
      simp only [HostOp.apply, Machine.loadRom, hfit, if_true] at h
      cases h
      exact .inl ⟨bytes, rfl, hfit, rfl, rfl⟩
    | false =>
      simp only [HostOp.apply, Machine.loadRom, hfit, Bool.false_eq_true, if_false] at h
      cases h
      exact .inr (.inl ⟨bytes, rfl, hfit, rfl, rfl⟩)
  | cycle =>
    simp only [HostOp.apply] at h
    split at h
    · next u hu => cases h; exact .inr (.inr (.inl ⟨rfl, hu, rfl⟩))
    · cases h
    · cases h
  | tickTimers => cases h; exact .inr (.inr (.inr (.inl ⟨rfl, rfl, rfl⟩)))
  | setPressed k => cases h; exact .inr (.inr (.inr (.inr (.inl ⟨k, rfl, rfl, rfl⟩))))
  | setReleased k => cases h; exact .inr (.inr (.inr (.inr (.inr (.inl ⟨k, rfl, rfl, rfl⟩)))))
  | get x y => cases h; exact .inr (.inr (.inr (.inr (.inr (.inr ⟨x, y, rfl, rfl, rfl⟩)))))

/-- All that `load_rom` does to any field but memory: nothing. -/
theorem loadRom_eq (bytes : List Byte) (s t : State) (h : loadRom bytes s = .ok t) : t = { s with mem := t.mem } := by
  unfold loadRom at h
  split at h
  · cases h; exact State.storeBytes_eq bytes s Config.romBase
  · cases h

end Sys2Proof.Machine
end

