-- ==== Sys2Proof/Laws/PerInstr.lean ====
section
/-! SUPPORT. Per instruction: the word of an instruction matches the row of its mnemonic in the opcode table
(spec/30_encoding.md R80), a fact about the encoder and the table, not the decoder. -/

namespace Sys2Proof.Laws.EncodingRow

/-- The table has a row of the instruction's mnemonic, and the instruction's word matches it. -/
def Statement (i : Instr) : Prop := ∃ r ∈ opcodeTable, r.mnemonic = i.mnemonic ∧ r.covers (encode i) = true

/-- A word of format NNN matches a row that fixes the group. -/
theorem nnn_covers (o : BitVec 4) (nnn : Addr) :
    formatNNN o nnn &&& formatNNN 0xF 0 = formatNNN o 0 := by
  rw [formatNNN_and, show nnn &&& 0 = 0 from BitVec.and_zero, show o &&& 0xF = o from BitVec.and_allOnes]

/-- A word of format XNN matches a row that fixes the group and the low byte. -/
theorem xfn_covers (o : BitVec 4) (x : RegIdx) (nn : Byte) :
    formatXNN o x nn &&& formatXNN 0xF 0 0xFF = formatXNN o 0 nn := by
  rw [formatXNN_and, show x &&& 0 = 0 from BitVec.and_zero, show o &&& 0xF = o from BitVec.and_allOnes,
    show nn &&& 0xFF = nn from BitVec.and_allOnes]

/-- A word of format XYN matches a row that fixes the group and the low nibble. -/
theorem xyn_covers (o : BitVec 4) (x y : RegIdx) (n : BitVec 4) :
    formatXYN o x y n &&& formatXYN 0xF 0 0 0xF = formatXYN o 0 0 n := by
  rw [formatXYN_and, show x &&& 0 = 0 from BitVec.and_zero, show y &&& 0 = 0 from BitVec.and_zero, show o &&& 0xF = o from BitVec.and_allOnes,
    show n &&& 0xF = n from BitVec.and_allOnes]

theorem cls : Statement (.cls) :=
  ⟨⟨"CLS", 0xFFFF, 0x00E0⟩, by decide, rfl, (by decide)⟩

theorem ret : Statement (.ret) :=
  ⟨⟨"RET", 0xFFFF, 0x00EE⟩, by decide, rfl, (by decide)⟩

theorem jp (nnn : Addr) : Statement (.jp nnn) :=
  ⟨⟨"JP", 0xF000, 0x1000⟩, by decide, rfl, (beq_iff_eq.mpr (nnn_covers 0x1 nnn))⟩

theorem call (nnn : Addr) : Statement (.call nnn) :=
  ⟨⟨"CALL", 0xF000, 0x2000⟩, by decide, rfl, (beq_iff_eq.mpr (nnn_covers 0x2 nnn))⟩

theorem seImm (x : RegIdx) (nn : Byte) : Statement (.seImm x nn) :=
  ⟨⟨"SE_IMM", 0xF000, 0x3000⟩, by decide, rfl, (beq_iff_eq.mpr (nnn_covers 0x3 (x ++ nn)))⟩

theorem sneImm (x : RegIdx) (nn : Byte) : Statement (.sneImm x nn) :=
  ⟨⟨"SNE_IMM", 0xF000, 0x4000⟩, by decide, rfl, (beq_iff_eq.mpr (nnn_covers 0x4 (x ++ nn)))⟩

theorem seReg (x y : RegIdx) : Statement (.seReg x y) :=
  ⟨⟨"SE_REG", 0xF00F, 0x5000⟩, by decide, rfl, (beq_iff_eq.mpr (xyn_covers 0x5 x y 0x0))⟩

theorem ldImm (x : RegIdx) (nn : Byte) : Statement (.ldImm x nn) :=
  ⟨⟨"LD_IMM", 0xF000, 0x6000⟩, by decide, rfl, (beq_iff_eq.mpr (nnn_covers 0x6 (x ++ nn)))⟩

theorem addImm (x : RegIdx) (nn : Byte) : Statement (.addImm x nn) :=
  ⟨⟨"ADD_IMM", 0xF000, 0x7000⟩, by decide, rfl, (beq_iff_eq.mpr (nnn_covers 0x7 (x ++ nn)))⟩

theorem ldReg (x y : RegIdx) : Statement (.ldReg x y) :=
  ⟨⟨"LD_REG", 0xF00F, 0x8000⟩, by decide, rfl, (beq_iff_eq.mpr (xyn_covers 0x8 x y 0x0))⟩

theorem or (x y : RegIdx) : Statement (.or x y) :=
  ⟨⟨"OR", 0xF00F, 0x8001⟩, by decide, rfl, (beq_iff_eq.mpr (xyn_covers 0x8 x y 0x1))⟩

theorem and (x y : RegIdx) : Statement (.and x y) :=
  ⟨⟨"AND", 0xF00F, 0x8002⟩, by decide, rfl, (beq_iff_eq.mpr (xyn_covers 0x8 x y 0x2))⟩

theorem xor (x y : RegIdx) : Statement (.xor x y) :=
  ⟨⟨"XOR", 0xF00F, 0x8003⟩, by decide, rfl, (beq_iff_eq.mpr (xyn_covers 0x8 x y 0x3))⟩

theorem addReg (x y : RegIdx) : Statement (.addReg x y) :=
  ⟨⟨"ADD_REG", 0xF00F, 0x8004⟩, by decide, rfl, (beq_iff_eq.mpr (xyn_covers 0x8 x y 0x4))⟩

theorem sub (x y : RegIdx) : Statement (.sub x y) :=
  ⟨⟨"SUB", 0xF00F, 0x8005⟩, by decide, rfl, (beq_iff_eq.mpr (xyn_covers 0x8 x y 0x5))⟩

theorem shr (x y : RegIdx) : Statement (.shr x y) :=
  ⟨⟨"SHR", 0xF00F, 0x8006⟩, by decide, rfl, (beq_iff_eq.mpr (xyn_covers 0x8 x y 0x6))⟩

theorem subn (x y : RegIdx) : Statement (.subn x y) :=
  ⟨⟨"SUBN", 0xF00F, 0x8007⟩, by decide, rfl, (beq_iff_eq.mpr (xyn_covers 0x8 x y 0x7))⟩

theorem shl (x y : RegIdx) : Statement (.shl x y) :=
  ⟨⟨"SHL", 0xF00F, 0x800E⟩, by decide, rfl, (beq_iff_eq.mpr (xyn_covers 0x8 x y 0xE))⟩

theorem sneReg (x y : RegIdx) : Statement (.sneReg x y) :=
  ⟨⟨"SNE_REG", 0xF00F, 0x9000⟩, by decide, rfl, (beq_iff_eq.mpr (xyn_covers 0x9 x y 0x0))⟩

theorem ldI (nnn : Addr) : Statement (.ldI nnn) :=
  ⟨⟨"LD_I", 0xF000, 0xA000⟩, by decide, rfl, (beq_iff_eq.mpr (nnn_covers 0xA nnn))⟩

theorem jpV0 (nnn : Addr) : Statement (.jpV0 nnn) :=
  ⟨⟨"JP_V0", 0xF000, 0xB000⟩, by decide, rfl, (beq_iff_eq.mpr (nnn_covers 0xB nnn))⟩

theorem rnd (x : RegIdx) (nn : Byte) : Statement (.rnd x nn) :=
  ⟨⟨"RND", 0xF000, 0xC000⟩, by decide, rfl, (beq_iff_eq.mpr (nnn_covers 0xC (x ++ nn)))⟩

theorem drw (x y : RegIdx) (n : BitVec 4) : Statement (.drw x y n) :=
  ⟨⟨"DRW", 0xF000, 0xD000⟩, by decide, rfl, (beq_iff_eq.mpr (nnn_covers 0xD (x ++ (y ++ n : BitVec 8))))⟩

theorem skp (x : RegIdx) : Statement (.skp x) :=
  ⟨⟨"SKP", 0xF0FF, 0xE09E⟩, by decide, rfl, (beq_iff_eq.mpr (xfn_covers 0xE x 0x9E))⟩

theorem sknp (x : RegIdx) : Statement (.sknp x) :=
  ⟨⟨"SKNP", 0xF0FF, 0xE0A1⟩, by decide, rfl, (beq_iff_eq.mpr (xfn_covers 0xE x 0xA1))⟩

theorem ldVxDt (x : RegIdx) : Statement (.ldVxDt x) :=
  ⟨⟨"LD_VX_DT", 0xF0FF, 0xF007⟩, by decide, rfl, (beq_iff_eq.mpr (xfn_covers 0xF x 0x07))⟩

theorem ldVxK (x : RegIdx) : Statement (.ldVxK x) :=
  ⟨⟨"LD_VX_K", 0xF0FF, 0xF00A⟩, by decide, rfl, (beq_iff_eq.mpr (xfn_covers 0xF x 0x0A))⟩

theorem ldDtVx (x : RegIdx) : Statement (.ldDtVx x) :=
  ⟨⟨"LD_DT_VX", 0xF0FF, 0xF015⟩, by decide, rfl, (beq_iff_eq.mpr (xfn_covers 0xF x 0x15))⟩

theorem ldStVx (x : RegIdx) : Statement (.ldStVx x) :=
  ⟨⟨"LD_ST_VX", 0xF0FF, 0xF018⟩, by decide, rfl, (beq_iff_eq.mpr (xfn_covers 0xF x 0x18))⟩

theorem addIVx (x : RegIdx) : Statement (.addIVx x) :=
  ⟨⟨"ADD_I_VX", 0xF0FF, 0xF01E⟩, by decide, rfl, (beq_iff_eq.mpr (xfn_covers 0xF x 0x1E))⟩

theorem ldFVx (x : RegIdx) : Statement (.ldFVx x) :=
  ⟨⟨"LD_F_VX", 0xF0FF, 0xF029⟩, by decide, rfl, (beq_iff_eq.mpr (xfn_covers 0xF x 0x29))⟩

theorem ldBVx (x : RegIdx) : Statement (.ldBVx x) :=
  ⟨⟨"LD_B_VX", 0xF0FF, 0xF033⟩, by decide, rfl, (beq_iff_eq.mpr (xfn_covers 0xF x 0x33))⟩

theorem ldMemVx (x : RegIdx) : Statement (.ldMemVx x) :=
  ⟨⟨"LD_MEM_VX", 0xF0FF, 0xF055⟩, by decide, rfl, (beq_iff_eq.mpr (xfn_covers 0xF x 0x55))⟩

theorem ldVxMem (x : RegIdx) : Statement (.ldVxMem x) :=
  ⟨⟨"LD_VX_MEM", 0xF0FF, 0xF065⟩, by decide, rfl, (beq_iff_eq.mpr (xfn_covers 0xF x 0x65))⟩

end Sys2Proof.Laws.EncodingRow
end

