-- ==== Sys2Proof/Tests/Slice0.lean ====
section
/-! SUPPORT. The model's own tests: one step each, on small states; the expected values are those of
spec/95_test_vectors.md (V<n>, S<n>), cited by name. Then the checks of WellFormed with an ill-formed term for each,
the decoding of words written out from spec/30_encoding.md, and the witnesses of the statements' hypotheses. -/

namespace Sys2Proof.Tests

open Sys2Proof.Machine

/-- The reset state with an opcode at 0x200 and some registers set. -/
def stateOf (w : Nat) (regs : List (RegIdx × Byte)) : State :=
  regs.foldl (fun s p => s.writeV p.1 p.2) (State.reset.withFetchWord 16 w)

/-- The outcome is a next state with the property. -/
def holdsNext (o : Host.Outcome State Fault Refusal) (f : State → Bool) : Bool :=
  match o with
  | .next t => f t
  | .fault _ => false
  | .refused _ => false

/-! ## One step -/

/-- V21. -/
theorem test_ret_pops :
    holdsNext (step ({ stateOf 0x00EE [] with stack := [0x206] }))
      (fun t => t.pc == 0x206 && t.stack == []) = true := by
  decide

/-- V20. -/
theorem test_ret_underflow :
    holdsNext (step (stateOf 0x00EE []))
      (fun t => t.fault == some ⟨.stackUnderflow, 0x200, 0x00EE⟩ && t.pc == 0x200 && t.stack == []) = true := by
  decide

/-- V22. -/
theorem test_jp :
    holdsNext (step (stateOf 0x1ABC []))
      (fun t => t.pc == 0xABC) = true := by
  decide

/-- V23. -/
theorem test_call_pushes :
    holdsNext (step (stateOf 0x2300 []))
      (fun t => t.pc == 0x300 && t.stack == [0x202]) = true := by
  decide

/-- V25. -/
theorem test_call_overflow :
    holdsNext (step ({ stateOf 0x2300 [] with stack := List.replicate 16 0x206 }))
      (fun t => t.fault == some ⟨.stackOverflow, 0x200, 0x2300⟩ && t.pc == 0x200 && t.stack.length == 16) = true := by
  decide

/-- V26. -/
theorem test_call_unbounded :
    holdsNext (step ({ stateOf 0x2300 [] with stack := List.replicate 16 0x206, params := { Config.defaults with stackDepth := none } }))
      (fun t => t.pc == 0x300 && t.stack.length == 17 && t.stack.getLast? == some 0x202) = true := by
  decide

/-- V28. -/
theorem test_jpV0_wraps :
    holdsNext (step (stateOf 0xBFFF [(0, 0xFF)]))
      (fun t => t.pc == 0x0FE) = true := by
  decide

/-- V29. -/
theorem test_jpV0_uses_v0 :
    holdsNext (step (stateOf 0xB200 [(5, 0x07)]))
      (fun t => t.pc == 0x200) = true := by
  decide

/-- V30. -/
theorem test_seImm_skips :
    holdsNext (step (stateOf 0x3300 [(3, 0x00)]))
      (fun t => t.pc == 0x204) = true := by
  decide

/-- V31. -/
theorem test_seImm_stays :
    holdsNext (step (stateOf 0x3300 [(3, 0x01)]))
      (fun t => t.pc == 0x202) = true := by
  decide

/-- V33. -/
theorem test_sneImm_skips :
    holdsNext (step (stateOf 0x4300 [(3, 0x01)]))
      (fun t => t.pc == 0x204) = true := by
  decide

/-- V35. -/
theorem test_seReg_skips :
    holdsNext (step (stateOf 0x5120 [(1, 0x42), (2, 0x42)]))
      (fun t => t.pc == 0x204) = true := by
  decide

/-- V36. -/
theorem test_seReg_stays :
    holdsNext (step (stateOf 0x5120 [(1, 0x42), (2, 0x43)]))
      (fun t => t.pc == 0x202) = true := by
  decide

/-- V37. -/
theorem test_sneReg_skips :
    holdsNext (step (stateOf 0x9120 [(1, 0x42), (2, 0x43)]))
      (fun t => t.pc == 0x204) = true := by
  decide

/-- V7. -/
theorem test_sneReg_stays :
    holdsNext (step (stateOf 0x9120 []))
      (fun t => t.pc == 0x202 && t.fault == none) = true := by
  decide

/-- V40. -/
theorem test_ldImm :
    holdsNext (step (stateOf 0x6142 [(1, 0x99)]))
      (fun t => t.readV 1 == 0x42 && t.pc == 0x202) = true := by
  decide

/-- V41. -/
theorem test_addImm_no_carry_flag :
    holdsNext (step (stateOf 0x7101 [(1, 0xFF), (15, 0x07)]))
      (fun t => t.readV 1 == 0x00 && t.readV 15 == 0x07) = true := by
  decide

/-- V42. -/
theorem test_addImm_vf :
    holdsNext (step (stateOf 0x7FF0 [(15, 0x10)]))
      (fun t => t.readV 15 == 0x00) = true := by
  decide

/-- V43. -/
theorem test_ldReg :
    holdsNext (step (stateOf 0x8120 [(2, 0x99)]))
      (fun t => t.readV 1 == 0x99) = true := by
  decide

/-- V44. -/
theorem test_or_keeps_vf :
    holdsNext (step (stateOf 0x8121 [(1, 0xF0), (2, 0x0F), (15, 0x05)]))
      (fun t => t.readV 1 == 0xFF && t.readV 15 == 0x05) = true := by
  decide

/-- V45. -/
theorem test_and_keeps_vf :
    holdsNext (step (stateOf 0x8122 [(1, 0xF0), (2, 0x3C), (15, 0x05)]))
      (fun t => t.readV 1 == 0x30 && t.readV 15 == 0x05) = true := by
  decide

/-- V46. -/
theorem test_xor_keeps_vf :
    holdsNext (step (stateOf 0x8123 [(1, 0xFF), (2, 0x0F), (15, 0x05)]))
      (fun t => t.readV 1 == 0xF0 && t.readV 15 == 0x05) = true := by
  decide

/-- V51. -/
theorem test_addReg_vf_target :
    holdsNext (step (stateOf 0x8F14 [(15, 0x10), (1, 0xF5)]))
      (fun t => t.readV 15 == 1) = true := by
  decide

/-- V52. -/
theorem test_addReg_vf_source :
    holdsNext (step (stateOf 0x81F4 [(1, 0x10), (15, 0xF0)]))
      (fun t => t.readV 1 == 0x00 && t.readV 15 == 1) = true := by
  decide

/-- S3. -/
theorem test_sub_borrow :
    holdsNext (step (stateOf 0x8125 [(1, 0x03), (2, 0x05)]))
      (fun t => t.readV 1 == 0xFE && t.readV 15 == 0) = true := by
  decide

/-- V54. -/
theorem test_sub_equal :
    holdsNext (step (stateOf 0x8125 [(1, 0x33), (2, 0x33)]))
      (fun t => t.readV 1 == 0x00 && t.readV 15 == 1) = true := by
  decide

/-- V58. -/
theorem test_shr_ignores_y :
    holdsNext (step (stateOf 0x8456 [(4, 0xFF), (5, 0x00)]))
      (fun t => t.readV 4 == 0x7F && t.readV 15 == 1) = true := by
  decide

/-- V60. -/
theorem test_shr_vf :
    holdsNext (step (stateOf 0x8F06 [(15, 0x03)]))
      (fun t => t.readV 15 == 1) = true := by
  decide

/-- V61. -/
theorem test_subn_borrow :
    holdsNext (step (stateOf 0x8127 [(1, 0x05), (2, 0x03)]))
      (fun t => t.readV 1 == 0xFE && t.readV 15 == 0) = true := by
  decide

/-- V62. -/
theorem test_subn_no_borrow :
    holdsNext (step (stateOf 0x8127 [(1, 0x03), (2, 0x05)]))
      (fun t => t.readV 1 == 0x02 && t.readV 15 == 1) = true := by
  decide

/-- V64. -/
theorem test_shl_high_bit :
    holdsNext (step (stateOf 0x840E [(4, 0x81)]))
      (fun t => t.readV 4 == 0x02 && t.readV 15 == 1) = true := by
  decide

/-- V65. -/
theorem test_shl_no_high_bit :
    holdsNext (step (stateOf 0x840E [(4, 0x40)]))
      (fun t => t.readV 4 == 0x80 && t.readV 15 == 0) = true := by
  decide

/-- V70. -/
theorem test_ldI :
    holdsNext (step (stateOf 0xA300 []))
      (fun t => t.I == 0x300) = true := by
  decide

/-- V72. -/
theorem test_addIVx_wraps :
    holdsNext (step ({ stateOf 0xF21E [(2, 0x01)] with I := 0xFFF }))
      (fun t => t.I == 0x000 && t.readV 15 == 0x00) = true := by
  decide

/-- V73. -/
theorem test_ldFVx_digit :
    holdsNext (step (stateOf 0xF029 [(0, 0x0A)]))
      (fun t => t.I == 0x032) = true := by
  decide

/-- V75. -/
theorem test_ldFVx_no_mask :
    holdsNext (step (stateOf 0xF029 [(0, 0xFF)]))
      (fun t => t.I == 0x4FB) = true := by
  decide

/-- V76. -/
theorem test_ldBVx_digits :
    holdsNext (step ({ stateOf 0xF033 [(0, 0xFE)] with I := 0x300 }))
      (fun t => t.memRead 0x300 == 2 && t.memRead 0x301 == 5 && t.memRead 0x302 == 4 && t.I == 0x300) = true := by
  decide

/-- V78. -/
theorem test_ldBVx_wraps :
    holdsNext (step ({ stateOf 0xF033 [(0, 0x7B)] with I := 0xFFE }))
      (fun t => t.memRead 0xFFE == 1 && t.memRead 0xFFF == 2 && t.memRead 0x000 == 3) = true := by
  decide

/-- V79. -/
theorem test_ldMemVx :
    holdsNext (step ({ stateOf 0xF155 [(0, 0x11), (1, 0x22), (2, 0x33)] with I := 0x400 }))
      (fun t => t.memRead 0x400 == 0x11 && t.memRead 0x401 == 0x22 && t.memRead 0x402 == 0 && t.I == 0x400) = true := by
  decide

/-- V80. -/
theorem test_ldMemVx_wraps :
    holdsNext (step ({ stateOf 0xFF55 [(7, 7), (8, 8), (15, 15)] with I := 0xFF8 }))
      (fun t => t.memRead 0xFFF == 7 && t.memRead 0x000 == 8 && t.memRead 0x007 == 15) = true := by
  decide

/-- V83. -/
theorem test_ldVxMem_font :
    holdsNext (step (stateOf 0xF465 []))
      (fun t => t.readV 0 == 0xF0 && t.readV 1 == 0x90 && t.readV 4 == 0xF0 && t.readV 5 == 0 && t.I == 0) = true := by
  decide

/-- V90. -/
theorem test_cls_keeps_vf :
    holdsNext (step ({ stateOf 0x00E0 [(15, 0x05)] with fb := Vector.replicate 32 0xFF }))
      (fun t => !getPixel 0 0 t && !getPixel 63 31 t && t.readV 15 == 0x05) = true := by
  decide

/-- V98. -/
theorem test_drw_wraps_memory :
    holdsNext (step ({ stateOf 0xD012 [] with I := 0xFFF, mem := [(0x200, 0xD0), (0x201, 0x12), (0xFFF, 0x80)] }))
      (fun t => getPixel 0 0 t && getPixel 3 1 t && !getPixel 1 0 t && !getPixel 4 1 t && t.readV 15 == 0) = true := by
  decide

/-- V93. -/
theorem test_drw_wraps_both_axes :
    holdsNext (step ({ stateOf 0xD012 [(0, 62), (1, 31)] with I := 0x300, mem := [(0x200, 0xD0), (0x201, 0x12), (0x300, 0xFF), (0x301, 0xFF)] }))
      (fun t => getPixel 62 31 t && getPixel 5 31 t && !getPixel 6 31 t && getPixel 63 0 t && getPixel 5 0 t && t.readV 15 == 0) = true := by
  decide

/-- V100. -/
theorem test_skp_pressed :
    holdsNext (step ({ stateOf 0xE59E [(5, 0x0C)] with keys := 0x1000 }))
      (fun t => t.pc == 0x204) = true := by
  decide

/-- V104. -/
theorem test_skp_index_fault :
    holdsNext (step ({ stateOf 0xE59E [(5, 0x13)] with keys := 0x0008 }))
      (fun t => t.fault == some ⟨.keyIndexOutOfRange, 0x200, 0xE59E⟩ && t.pc == 0x200) = true := by
  decide

/-- V102. -/
theorem test_sknp_not_pressed :
    holdsNext (step (stateOf 0xE5A1 [(5, 0x0C)]))
      (fun t => t.pc == 0x204) = true := by
  decide

/-- V107. -/
theorem test_sknp_policy_not_pressed :
    holdsNext (step ({ stateOf 0xE5A1 [(5, 0x13)] with keys := 0x0008, params := { Config.defaults with keyIndexPolicy := .notPressed } }))
      (fun t => t.pc == 0x204) = true := by
  decide

/-- V108. -/
theorem test_ldVxDt :
    holdsNext (step ({ stateOf 0xF307 [] with dt := 0x3C }))
      (fun t => t.readV 3 == 0x3C && t.dt == 0x3C) = true := by
  decide

/-- V112. -/
theorem test_ldVxK_always_waits :
    holdsNext (step ({ stateOf 0xF30A [] with keys := 0x0004 }))
      (fun t => t.wait == some 3 && t.readV 3 == 0x00 && t.pc == 0x202) = true := by
  decide

/-- V109. -/
theorem test_ldDtVx :
    holdsNext (step (stateOf 0xF015 [(0, 0x03)]))
      (fun t => t.dt == 3 && t.st == 0) = true := by
  decide

/-- V110. -/
theorem test_ldStVx :
    holdsNext (step (stateOf 0xF118 [(1, 0x10)]))
      (fun t => t.st == 0x10 && t.dt == 0) = true := by
  decide

/-- V6. -/
theorem test_unknown_faults :
    holdsNext (step (stateOf 0x5121 []))
      (fun t => t.fault == some ⟨.unknownOpcode, 0x200, 0x5121⟩ && t.pc == 0x200) = true := by
  decide

/-- V5. -/
theorem test_unknown_lenient :
    holdsNext (step ({ stateOf 0x0000 [] with params := { Config.defaults with lenientUnknown := true } }))
      (fun t => t.fault == none && t.pc == 0x202) = true := by
  decide

/-- V3. -/
theorem test_odd_pc :
    holdsNext (step ({ stateOf 0x0000 [] with pc := 0x201, mem := [(0x201, 0x60), (0x202, 0x07)] }))
      (fun t => t.readV 0 == 0x07 && t.pc == 0x203) = true := by
  decide

/-- V2. -/
theorem test_fetch_wraps :
    holdsNext (step ({ stateOf 0x0000 [] with pc := 0xFFF, mem := [(0xFFF, 0x12)] }))
      (fun t => t.pc == 0x2F0) = true := by
  decide

/-- V113. -/
theorem test_wait_lowest_key :
    holdsNext (step ({ stateOf 0x0000 [] with wait := some 3, keys := 0x8080 }))
      (fun t => t.readV 3 == 0x07 && t.wait == none && t.pc == 0x200) = true := by
  decide

/-- V12. -/
theorem test_latched_stays :
    holdsNext (step ({ stateOf 0x6142 [] with fault := some ⟨.unknownOpcode, 0x200, 0x0000⟩ }))
      (fun t => t.readV 1 == 0 && t.pc == 0x200 && t.cycleResult == .fault ⟨.unknownOpcode, 0x200, 0x0000⟩) = true := by
  decide

/-! ## Decoding: every constructor by a word written out from the patterns of R80 (x = A, y = 5, n = C) -/

theorem test_decode_flow :
    decode 0b0000_0000_1110_1110 = .ok .ret ∧
    decode 0b0001_1010_0101_1100 = .ok (.jp 0xA5C) ∧
    decode 0b0010_1010_0101_1100 = .ok (.call 0xA5C) ∧
    decode 0b1011_1010_0101_1100 = .ok (.jpV0 0xA5C) ∧
    decode 0b0011_1010_0101_1100 = .ok (.seImm 0xA 0x5C) ∧
    decode 0b0100_1010_0101_1100 = .ok (.sneImm 0xA 0x5C) ∧
    decode 0b0101_1010_0101_0000 = .ok (.seReg 0xA 0x5) ∧
    decode 0b1001_1010_0101_0000 = .ok (.sneReg 0xA 0x5) := by
  decide

theorem test_decode_alu :
    decode 0b0110_1010_0101_1100 = .ok (.ldImm 0xA 0x5C) ∧
    decode 0b0111_1010_0101_1100 = .ok (.addImm 0xA 0x5C) ∧
    decode 0b1000_1010_0101_0000 = .ok (.ldReg 0xA 0x5) ∧
    decode 0b1000_1010_0101_0001 = .ok (.or 0xA 0x5) ∧
    decode 0b1000_1010_0101_0010 = .ok (.and 0xA 0x5) ∧
    decode 0b1000_1010_0101_0011 = .ok (.xor 0xA 0x5) ∧
    decode 0b1000_1010_0101_0100 = .ok (.addReg 0xA 0x5) ∧
    decode 0b1000_1010_0101_0101 = .ok (.sub 0xA 0x5) ∧
    decode 0b1000_1010_0101_0110 = .ok (.shr 0xA 0x5) ∧
    decode 0b1000_1010_0101_0111 = .ok (.subn 0xA 0x5) ∧
    decode 0b1000_1010_0101_1110 = .ok (.shl 0xA 0x5) ∧
    decode 0b1100_1010_0101_1100 = .ok (.rnd 0xA 0x5C) := by
  decide

theorem test_decode_index_memory :
    decode 0b1010_1010_0101_1100 = .ok (.ldI 0xA5C) ∧
    decode 0b1111_1010_0001_1110 = .ok (.addIVx 0xA) ∧
    decode 0b1111_1010_0010_1001 = .ok (.ldFVx 0xA) ∧
    decode 0b1111_1010_0011_0011 = .ok (.ldBVx 0xA) ∧
    decode 0b1111_1010_0101_0101 = .ok (.ldMemVx 0xA) ∧
    decode 0b1111_1010_0110_0101 = .ok (.ldVxMem 0xA) := by
  decide

theorem test_decode_display :
    decode 0b0000_0000_1110_0000 = .ok .cls ∧
    decode 0b1101_1010_0101_1100 = .ok (.drw 0xA 0x5 0xC) := by
  decide

theorem test_decode_keypad_timer :
    decode 0b1110_1010_1001_1110 = .ok (.skp 0xA) ∧
    decode 0b1110_1010_1010_0001 = .ok (.sknp 0xA) ∧
    decode 0b1111_1010_0000_0111 = .ok (.ldVxDt 0xA) ∧
    decode 0b1111_1010_0000_1010 = .ok (.ldVxK 0xA) ∧
    decode 0b1111_1010_0001_0101 = .ok (.ldDtVx 0xA) ∧
    decode 0b1111_1010_0001_1000 = .ok (.ldStVx 0xA) := by
  decide

theorem test_decode_rejects_by_name :
    decode 0x0000 = .error .group0 ∧ decode 0x00E1 = .error .group0 ∧ decode 0x0FFF = .error .group0 ∧
    decode 0x5001 = .error .group5 ∧ decode 0x8008 = .error .group8 ∧ decode 0x800D = .error .group8 ∧
    decode 0x800F = .error .group8 ∧ decode 0x900F = .error .group9 ∧ decode 0xE09F = .error .groupE ∧
    decode 0xF000 = .error .groupF ∧ decode 0xF066 = .error .groupF ∧
    decodeBytes [] = .error .truncated ∧ decodeBytes [0x12] = .error .truncated := by
  decide

/-- R55: the first byte is the high byte, and the rest is left. -/
theorem test_decodeBytes : decodeBytes [0x61, 0x23, 0xFF] = .ok (.ldImm 1 0x23, [0xFF]) := by decide

theorem test_decodeTableWord :
    decodeTableWord 16 0xD12F = some (.drw 1 2 15) ∧ decodeTableWord 16 0x5121 = none := by
  decide

/-! ## WellFormed: each check refuses an ill-formed term -/

/-- V6, V8, V9, V10, V11: words of no row. -/
theorem test_wordRecognized_refuses :
    wordRecognized 0x5121 = false ∧ wordRecognized 0x8128 = false ∧ wordRecognized 0xE1FF = false ∧
    wordRecognized 0xF1FF = false ∧ wordRecognized 0x0123 = false ∧ wordRecognized 0x9120 = true := by
  decide

/-- S9: 3584 bytes fit, 3585 do not. -/
theorem test_romFits_refuses :
    romFits (List.replicate 3584 0xAA) = true ∧ romFits (List.replicate 3585 0xAA) = false := by
  simp only [romFits, List.length_replicate]
  decide

theorem test_params_wellFormed_refuses :
    Params.wellFormed { Config.defaults with stackDepth := some 0 } = false ∧
    Params.wellFormed { Config.defaults with stackDepth := some 1 } = true ∧
    Params.wellFormed { Config.defaults with stackDepth := none } = true := by
  decide

/-! ## The random byte and the host operations -/

/-- V67, with the byte as the argument it is. -/
theorem test_rnd_mask :
    ((stateOf 0xC30F []).randomInto 3 0x0F 0xB7).readV 3 = 0x07 ∧
    ((stateOf 0xC30F []).randomInto 3 0x0F 0xB7).draws = 1 := by
  decide

/-- V115, V116, V117: ticks floor at zero, and go on in a wait. -/
theorem test_tickTimers :
    (tickTimers { State.reset with dt := 1, st := 2 }).dt = 0 ∧ (tickTimers { State.reset with dt := 1, st := 2 }).st = 1 ∧
    (tickTimers State.reset).dt = 0 ∧ (tickTimers { State.reset with dt := 2, wait := some 0 }).dt = 1 := by
  decide

/-- V118, V119. -/
theorem test_key_mutators :
    (setPressed 3 (setPressed 3 State.reset)).keys = 0x0008 ∧
    (setReleased 5 { State.reset with keys := 0x0008 }).keys = 0x0008 ∧
    (setReleased 3 { State.reset with keys := 0x000C }).keys = 0x0004 := by
  decide

/-- V120: pixel (4, 1) read as (68, 33). -/
theorem test_getPixel_wraps :
    getPixel 68 33 { State.reset with fb := flipPixel clearFramebuffer 4 1 } = true ∧
    getPixel 4 0 { State.reset with fb := flipPixel clearFramebuffer 4 1 } = false := by
  decide

/-- V132: two bytes at 0x200, the next one still 0. -/
theorem test_loadRom :
    (match loadRom [0x12, 0x34] State.reset with
      | .ok t => t.memRead 0x200 == 0x12 && t.memRead 0x201 == 0x34 && t.memRead 0x202 == 0 && t.memRead 0x000 == 0xF0
      | .error _ => false) = true := by
  decide

/-- R219, D20: no second load, and none after a cycle. -/
theorem test_host_sequences :
    hostSequenceAllowed true [.tickTimers, .loadRom [], .cycle, .setPressed 3, .cycle, .get 0 0] = true ∧
    hostSequenceAllowed true [.loadRom [], .loadRom []] = false ∧
    hostSequenceAllowed true [.cycle, .loadRom []] = false := by
  decide

/-- V130: the construction contents of memory. -/
theorem test_construction_memory :
    State.reset.memRead 0x000 = 0xF0 ∧ State.reset.memRead 0x04F = 0x80 ∧ State.reset.memRead 0x050 = 0 ∧
    State.reset.memRead 0xFFF = 0 := by
  decide

/-! ## Witnesses: for each statement with hypotheses, states and operands that meet them, clause by clause -/

theorem witness_EncodeOfDecodeIsTheWord : decode 0xDABF = .ok (.drw 0xA 0xB 0xF) := by decide

theorem witness_CanonicalMemoriesThatReadAlikeAreEqual :
    Memory.wf Config.defaultFont [(0x000, 0x01), (0x200, 0x12), (0xFFF, 0x80)] := by decide

/-- Both ends of the register range, the second across the end of memory. -/
theorem witness_StoredBytesAreFetchedNext :
    (∃ t, exec (.ldMemVx 1) { stateOf 0xF155 [] with I := 0x202, pc := 0x202 } = .next t ∧
      t.pc = State.indexAddr { stateOf 0xF155 [] with I := 0x202, pc := 0x202 } 0 ∧ 0 < BitVec.toNat (1 : RegIdx)) ∧
    (∃ t, exec (.ldMemVx 15) { stateOf 0xFF55 [] with I := 0xFF8, pc := 0x006 } = .next t ∧
      t.pc = State.indexAddr { stateOf 0xFF55 [] with I := 0xFF8, pc := 0x006 } 14 ∧ 14 < BitVec.toNat (15 : RegIdx)) :=
  ⟨⟨_, rfl, by decide, by decide⟩, ⟨_, rfl, by decide, by decide⟩⟩

/-- Addresses at the end of the fontset and after it. -/
theorem witness_ConstructionState :
    BitVec.toNat (0x04F : Addr) < 80 ∧ 80 ≤ BitVec.toNat (0x050 : Addr) ∧ 80 ≤ BitVec.toNat (0xFFF : Addr) := by
  decide

theorem reset_meets_Inv : Inv State.reset :=
  ⟨Memory.nil_wf _, fun _ _ => Nat.zero_le _, fun _ h => by cases h⟩

/-- A latched state that meets the invariant: the latch clause is not empty. -/
theorem latched_state_meets_Inv :
    Inv { State.reset with fault := some ⟨.unknownOpcode, 0x200, 0x0000⟩ } where
  mem_canonical := Memory.nil_wf _
  stack_bounded := fun _ _ => Nat.zero_le _
  latch_precise := fun r h => by
    cases h
    exact ⟨rfl, by decide, ⟨by decide, rfl⟩, rfl⟩

theorem witness_StepKeepsTheInvariant : ∃ s t, Inv s ∧ step s = .next t :=
  ⟨State.reset, _, reset_meets_Inv, rfl⟩

theorem witness_ReachableStatesMeetTheInvariant :
    Reachable Config.defaults true State.reset ∧
    ∃ t, Reachable Config.defaults false t :=
  ⟨.construct, _, .operation true State.reset _ .cycle _ .construct rfl rfl⟩

/-- A load with a clear latch, and a tick with a set one. -/
theorem witness_HostOperationsKeepTheInvariant :
    (Inv State.reset ∧ State.reset.fault = none ∧
      ∃ t, (HostOp.loadRom [0x12, 0x00]).apply State.reset = .next (t, .ok)) ∧
    ∃ s t, Inv s ∧ s.fault ≠ none ∧ HostOp.tickTimers.apply s = .next (t, .none) ∧
      ∀ bytes, HostOp.tickTimers ≠ .loadRom bytes :=
  ⟨⟨reset_meets_Inv, rfl, _, rfl⟩, _, _, latched_state_meets_Inv, by decide, rfl, fun _ h => by cases h⟩

theorem witness_EveryAllowedHostSequenceRuns :
    hostSequenceAllowed true [.loadRom [0x12, 0x00], .cycle, .tickTimers] = true := by decide

theorem witness_StepRunsTheDecodedInstruction :
    (stateOf 0x6142 []).fault = none ∧ (stateOf 0x6142 []).wait = none ∧
      decode (stateOf 0x6142 []).fetchWord = .ok (.ldImm 1 0x42) := by
  decide

/-- Strict and lenient. -/
theorem witness_UnrecognizedWordFaultsOrIsSkipped :
    State.reset.fault = none ∧ State.reset.wait = none ∧ wordRecognized State.reset.fetchWord = false ∧
      State.reset.params.lenientUnknown = false ∧
      (State.construct { Config.defaults with lenientUnknown := true }).params.lenientUnknown = true ∧
      wordRecognized (State.construct { Config.defaults with lenientUnknown := true }).fetchWord = false := by
  decide

/-- Every key vector: no key, one key, all of them. -/
theorem witness_WaitingCycleTakesTheLowestKey (k : BitVec 16) :
    ({ State.reset with wait := some 3, keys := k } : State).fault = none ∧
    ({ State.reset with wait := some 3, keys := k } : State).wait = some 3 ∧
    ({ State.reset with wait := some 3, keys := k } : State).keys = k :=
  ⟨rfl, rfl, rfl⟩

/-- The clauses `keys = 0` and `keys ≠ 0` at their boundary values. -/
theorem witness_WaitingCycle_clauses : (0x0001 : BitVec 16) ≠ 0 ∧ (0x8000 : BitVec 16) ≠ 0 := by decide

theorem witness_LatchedCycleChangesNothing :
    ({ State.reset with fault := some ⟨.stackUnderflow, 0x200, 0x00EE⟩, wait := some 1 } : State).fault =
      some ⟨.stackUnderflow, 0x200, 0x00EE⟩ := rfl

/-- A cycle from reset latches a fault. -/
theorem witness_FaultsArePrecise :
    ∃ t r, State.reset.fault = none ∧ step State.reset = .next t ∧ t.fault = some r :=
  ⟨_, _, rfl, rfl, rfl⟩

/-- Each of the four causes holds in some state with latch and wait clear. -/
theorem witness_FaultsHaveExactlyTheirCauses :
    Causes (stateOf 0x00EE []) .stackUnderflow ∧
    Causes { stateOf 0x2300 [] with stack := List.replicate 16 0 } .stackOverflow ∧
    Causes State.reset .unknownOpcode ∧ Causes (stateOf 0xE59E [(5, 16)]) .keyIndexOutOfRange ∧
    Causes (stateOf 0xE5A1 [(5, 255)]) .keyIndexOutOfRange := by
  refine ⟨⟨?_, ?_⟩, ⟨?_, ?_⟩, ⟨?_, ?_⟩, ⟨?_, ?_, ?_⟩, ⟨?_, ?_, ?_⟩⟩ <;> decide

theorem witness_InstructionsChangeOnlyTheirFootprint : ∃ t, exec (.addReg 1 2) State.reset = .next t := ⟨_, rfl⟩

/-- The addresses stored to: across the end of memory for Fx33, the ends of the range for Fx55, none for a load. -/
theorem witness_bytesWritten :
    bytesWritten { State.reset with I := 0xFFE } (.ldBVx 3) = [0xFFE, 0xFFF, 0x000] ∧
    bytesWritten { State.reset with I := 0x300 } (.ldMemVx 0) = [0x300] ∧
    (bytesWritten { State.reset with I := 0x300 } (.ldMemVx 15)).getLast? = some 0x30F ∧
    bytesWritten State.reset (.ldVxMem 15) = [] := by
  decide

theorem witness_CyclesNeverChangeKeysOrParameters : ∃ t, step State.reset = .next t := ⟨_, rfl⟩

theorem witness_FramebufferIsWrittenByClsAndDrwAndReadByTheFlagAlone :
    (∃ t, exec (.ldI 0x300) State.reset = .next t) ∧ Instr.ldI 0x300 ≠ .cls ∧ (∀ x y n, Instr.ldI 0x300 ≠ .drw x y n) :=
  ⟨⟨_, rfl⟩, by decide, fun _ _ _ h => by cases h⟩

/-- A step that changes the framebuffer, and a host operation other than `cycle()`. -/
theorem witness_FramebufferClauses :
    (∃ t, step { stateOf 0x00E0 [] with fb := Vector.replicate 32 1 } = .next t ∧ t.fb ≠ Vector.replicate 32 1) ∧
    (∃ t, HostOp.tickTimers ≠ .cycle ∧ HostOp.tickTimers.apply State.reset = .next (t, .none)) :=
  ⟨⟨_, rfl, by decide⟩, ⟨_, by decide, rfl⟩⟩

/-- V22's family: a JP to its own address at 0x200. -/
theorem witness_JpJumps :
    (stateOf 0x1200 []).fault = none ∧ (stateOf 0x1200 []).wait = none ∧
      (stateOf 0x1200 []).fetchWord = encode (.jp (stateOf 0x1200 []).pc) := by
  decide

theorem witness_RetPopsOrUnderflows :
    ({ State.reset with stack := [0x206] } : State).stack = [] ++ [0x206] ∧ State.reset.stack = [] := ⟨rfl, rfl⟩

/-- One entry below the capacity, at it, and unbounded. -/
theorem witness_CallPushesOrOverflows :
    State.reset.params.stackDepth ≠ some (List.replicate 15 (0 : Addr)).length ∧
    State.reset.params.stackDepth = some (List.replicate 16 (0 : Addr)).length ∧
    (State.construct { Config.defaults with stackDepth := none }).params.stackDepth ≠ some 17 := by
  decide

theorem witness_CallThenRetReturns : State.reset.params.stackDepth ≠ some State.reset.stack.length := by decide

theorem witness_ImmediateSkips :
    (stateOf 0x33FF [(3, 0xFF)]).readV 3 = 0xFF ∧ (stateOf 0x33FF [(3, 0xFE)]).readV 3 ≠ 0xFF := by decide

theorem witness_RegisterSkips :
    (stateOf 0x5120 [(1, 7), (2, 7)]).readV 1 = (stateOf 0x5120 [(1, 7), (2, 7)]).readV 2 ∧
    (stateOf 0x5120 [(1, 7)]).readV 1 ≠ (stateOf 0x5120 [(1, 7)]).readV 2 := by decide

/-- x next to VF and at the other end, for the clause `x ≠ 15` of the five flag statements. -/
theorem witness_flag_statements : (14 : RegIdx) ≠ 15 ∧ (0 : RegIdx) ≠ 15 := by decide

/-- k = x in the statement of Fx55, and an address below and one above the stored bytes. -/
theorem witness_LdMemVxStoresRegisters :
    15 ≤ BitVec.toNat (15 : RegIdx) ∧
    (∀ k, k ≤ BitVec.toNat (1 : RegIdx) → (0x301 : Addr) ≠ State.indexAddr { State.reset with I := 0x302 } k) ∧
    (∀ k, k ≤ BitVec.toNat (1 : RegIdx) → (0x304 : Addr) ≠ State.indexAddr { State.reset with I := 0x302 } k) := by
  decide

theorem witness_LdVxMemLoadsRegisters :
    BitVec.toNat (7 : RegIdx) ≤ BitVec.toNat (7 : RegIdx) ∧ BitVec.toNat (7 : RegIdx) < BitVec.toNat (8 : RegIdx) := by
  decide

/-- V91: the sprite 0x80 at (0, 0) covers (0, 0) and not (1, 0), in a clear and in a set framebuffer; with n = 0
nothing is covered. -/
theorem witness_DrwFlipsTheSpriteAndReportsCollision :
    (SpriteCovers { State.reset with I := 0x300, mem := [(0x300, 0x80)] } 0 1 1 0 0) ∧
    (¬ SpriteCovers State.reset 0 1 0 63 31) ∧
    (SpriteCovers { State.reset with I := 0x300, mem := [(0x300, 0x80)], fb := Vector.replicate 32 1 } 0 1 1 0 0 ∧
      getPixel 0 0 { State.reset with I := 0x300, mem := [(0x300, 0x80)], fb := Vector.replicate 32 1 } = true) ∧
    (∀ px py, SpriteCovers State.reset 0 1 15 px py → getPixel px py State.reset = false) := by
  refine ⟨⟨0, 0, by decide, by decide, by decide, by decide, by decide⟩, ?_,
    ⟨⟨0, 0, by decide, by decide, by decide, by decide, by decide⟩, by decide⟩, ?_⟩
  · rintro ⟨row, col, h, -⟩; exact absurd h (Nat.not_lt_zero row)
  · intro px py _; exact pixel_clearFramebuffer px py

theorem witness_KeySkipsTestTheirKey :
    ((stateOf 0xE59E [(5, 15)]).readV 5).toNat < 16 ∧ ((stateOf 0xE59E [(5, 0)]).readV 5).toNat < 16 := by decide

/-- The boundary index 16 under each policy. -/
theorem witness_KeyIndexOutOfRangeGoesByPolicy :
    ∀ p ∈ [KeyIndexPolicy.fault, .mask, .notPressed],
      (State.readV ((State.construct { Config.defaults with keyIndexPolicy := p }).writeV 5 16) 5).toNat ≥ 16 ∧
      ((State.construct { Config.defaults with keyIndexPolicy := p }).writeV 5 16).params.keyIndexPolicy = p := by
  decide

theorem witness_SoundTimerIsWrittenAndNeverRead : ∃ t, exec (.ldVxDt 3) State.reset = .next t := ⟨_, rfl⟩

/-- The longest ROM, the shortest too long, the empty one; an address below the ROM and one above it. -/
theorem witness_LoadRomLoadsOrRejects :
    (List.replicate 3584 (0xAA : Byte)).length ≤ 3584 ∧ (List.replicate 3585 (0xAA : Byte)).length > 3584 ∧
    ([] : List Byte).length ≤ 3584 ∧ 0 < [(0x12 : Byte)].length ∧ BitVec.toNat (0x1FF : Addr) < 0x200 ∧
    0x200 + [(0x12 : Byte)].length ≤ BitVec.toNat (0x201 : Addr) := by
  simp only [List.length_replicate]
  decide

/-- The codes of R200. -/
theorem test_fault_numbers :
    [Fault.stackUnderflow, .stackOverflow, .unknownOpcode, .keyIndexOutOfRange, .invalidRom].map Fault.number =
      [1, 2, 3, 4, 5] := by decide

end Sys2Proof.Tests
end

