-- ==== Sys2Proof/Proofs/Memory.lean ====
section
/-! The frame of a byte write, and the obligation on reading after it. -/

namespace Sys2Proof.Machine

/-- A byte write leaves every byte but the one at its address (R12, R59). -/
theorem State.onlyBytes_memWrite (s : State) (a : Addr) (b : Byte) : OnlyBytes [a] s (s.memWrite a b) := by
  intro c hc
  have hne : c ≠ a := List.ne_of_not_mem_cons hc
  rw [State.memRead_memWrite, if_neg hne]

/-- A byte write leaves every component but memory. -/
theorem State.onlyChanges_memWrite (s : State) (a : Addr) (b : Byte) :
    OnlyChanges [.mem] s (s.memWrite a b) := by
  intro f hf
  cases f with
  | mem => exact absurd (List.mem_singleton_self _) hf
  | _ => simp [Field.same]

/-- Settles O5: the law of `memWrite` at the written address, and the write's two frames. -/
theorem memoryReadAfterWrite : Obligations.MemoryReadAfterWrite := by
  intro s a b
  have hread : (s.memWrite a b).memRead a = b := by rw [State.memRead_memWrite, if_pos rfl]
  exact ⟨hread, s.onlyBytes_memWrite a b, s.onlyChanges_memWrite a b⟩

end Sys2Proof.Machine
end

