-- ==== Sys2Proof/Proofs/Frames.lean ====
section
/-! What each state operation, each instruction and each kind of cycle leaves alone, and the obligations on the
writers of the components. -/

namespace Sys2Proof.Machine

/-! ## Components left as they are -/

/-- The component holds the same data in `t` as in `s`. For the registers and the memory this is more than
`Field.same`, which compares what they read as: a memory kept as data keeps its canonical form. -/
def Field.kept (f : Field) (s t : State) : Prop :=
  match f with
  | .v => t.v = s.v
  | .I => t.I = s.I
  | .pc => t.pc = s.pc
  | .stack => t.stack = s.stack
  | .dt => t.dt = s.dt
  | .st => t.st = s.st
  | .keys => t.keys = s.keys
  | .fb => t.fb = s.fb
  | .wait => t.wait = s.wait
  | .fault => t.fault = s.fault
  | .mem => t.mem = s.mem
  | .params => t.params = s.params
  | .draws => t.draws = s.draws

/-- No component but those of `fs` holds other data in `t` than in `s`. -/
def Writes (fs : List Field) (s t : State) : Prop := ∀ f, f ∉ fs → f.kept s t

/-- A component kept as data reads the same; memory reads through the fontset too, so the parameters must be kept. -/
theorem Field.same_of_kept (f : Field) (s t : State) (hf : f.kept s t) (hp : t.params = s.params) : f.same s t := by
  cases f with
  | v => intro r; simp only [State.readV, show t.v = s.v from hf]
  | mem => intro a; simp only [State.memRead, show t.mem = s.mem from hf, hp]
  | _ => exact hf

theorem Writes.onlyChanges {fs : List Field} {s t : State} (h : Writes fs s t) (hp : .params ∉ fs) :
    OnlyChanges fs s t :=
  fun f hf => f.same_of_kept s t (h f hf) (h .params hp)

theorem Writes.refl (fs : List Field) (s : State) : Writes fs s s := by
  intro f _; cases f <;> rfl

theorem Writes.mono {fs gs : List Field} {s t : State} (h : Writes fs s t) (hsub : fs ⊆ gs) : Writes gs s t :=
  fun f hf => h f (fun hmem => hf (hsub hmem))

/-- `Writes`, component by component. -/
theorem writes_iff (fs : List Field) (s t : State) : Writes fs s t ↔
    (.v ∈ fs ∨ t.v = s.v) ∧ (.I ∈ fs ∨ t.I = s.I) ∧ (.pc ∈ fs ∨ t.pc = s.pc) ∧
    (.stack ∈ fs ∨ t.stack = s.stack) ∧ (.dt ∈ fs ∨ t.dt = s.dt) ∧ (.st ∈ fs ∨ t.st = s.st) ∧
    (.keys ∈ fs ∨ t.keys = s.keys) ∧ (.fb ∈ fs ∨ t.fb = s.fb) ∧ (.wait ∈ fs ∨ t.wait = s.wait) ∧
    (.fault ∈ fs ∨ t.fault = s.fault) ∧ (.mem ∈ fs ∨ t.mem = s.mem) ∧
    (.params ∈ fs ∨ t.params = s.params) ∧ (.draws ∈ fs ∨ t.draws = s.draws) := by
  have field (f : Field) : (f ∉ fs → f.kept s t) ↔ f ∈ fs ∨ f.kept s t := by tauto
  constructor
  · intro h
    have h' (f : Field) := (field f).mp (h f)
    exact ⟨h' .v, h' .I, h' .pc, h' .stack, h' .dt, h' .st, h' .keys, h' .fb, h' .wait, h' .fault, h' .mem,
      h' .params, h' .draws⟩
  · rintro ⟨hv, hI, hpc, hstack, hdt, hst, hkeys, hfb, hwait, hfault, hmem, hparams, hdraws⟩ f
    exact (field f).mpr (match f with
      | .v => hv | .I => hI | .pc => hpc | .stack => hstack | .dt => hdt | .st => hst | .keys => hkeys
      | .fb => hfb | .wait => hwait | .fault => hfault | .mem => hmem | .params => hparams
      | .draws => hdraws)

/-! ## What each state operation writes -/

section
variable (s : State)

theorem State.writes_writeV (x : RegIdx) (b : Byte) : Writes [.v] s (s.writeV x b) := by simp [writes_iff]
theorem State.writes_setI (a : Addr) : Writes [.I] s (s.setI a) := by simp [writes_iff]
theorem State.writes_jump (a : Addr) : Writes [.pc] s (s.jump a) := by simp [writes_iff]
theorem State.writes_setDt (b : Byte) : Writes [.dt] s (s.setDt b) := by simp [writes_iff]
theorem State.writes_setSt (b : Byte) : Writes [.st] s (s.setSt b) := by simp [writes_iff]
theorem State.writes_setFb (u : Framebuffer) : Writes [.fb] s (s.setFb u) := by simp [writes_iff]
theorem State.writes_setWait (w : Option RegIdx) : Writes [.wait] s (s.setWait w) := by simp [writes_iff]

theorem State.writes_skipIf (c : Bool) : Writes [.pc] s (s.skipIf c) := by
  rw [s.skipIf_eq]; simp [writes_iff]

theorem State.writes_writeResultAndFlag (x : RegIdx) (b : Byte) (c : Bool) :
    Writes [.v] s (s.writeResultAndFlag x b c) := by
  rw [s.writeResultAndFlag_eq]; simp [writes_iff]

theorem State.writes_loadRegs (n : Nat) : Writes [.v] s (s.loadRegs n) := by
  rw [s.loadRegs_eq]; simp [writes_iff]

theorem State.writes_storeBytes (a : Addr) (bs : List Byte) : Writes [.mem] s (s.storeBytes a bs) := by
  rw [State.storeBytes_eq]; simp [writes_iff]

theorem State.writes_randomInto (x : RegIdx) (nn r : Byte) : Writes [.v, .draws] s (s.randomInto x nn r) := by
  simp [writes_iff, State.randomInto]

theorem State.writes_raise (t : State) (code : Fault) (op : Word) (h : s.raise code op = .next t) :
    Writes [.pc, .fault] s t := by
  cases h; simp [writes_iff]

end

/-! ## The instructions that can raise a fault, said once -/

/-- The instruction raises the fault when it runs on `s`, with pc advanced (spec/60_exceptions.md R201 to R204). -/
inductive Raises (s : State) : Instr → Fault → Prop where
  | retUnderflow : s.stack = [] → Raises s .ret .stackUnderflow
  | callOverflow (nnn : Addr) :
      s.params.stackDepth = some s.stack.length → Raises s (.call nnn) .stackOverflow
  | skpIndex (x : RegIdx) :
      16 ≤ (s.readV x).toNat → s.params.keyIndexPolicy = .fault → Raises s (.skp x) .keyIndexOutOfRange
  | sknpIndex (x : RegIdx) :
      16 ≤ (s.readV x).toNat → s.params.keyIndexPolicy = .fault → Raises s (.sknp x) .keyIndexOutOfRange

/-- The instruction faults: it raises a fault with its own word. -/
def Faults (i : Instr) (s t : State) : Prop := ∃ code, Raises s i code ∧ s.raise code (encode i) = .next t

theorem keyTest_outOfRange (policy : KeyIndexPolicy) (keys : BitVec 16) (k : Byte)
    (h : keyTest policy keys k = .outOfRange) : 16 ≤ k.toNat ∧ policy = .fault := by
  unfold keyTest at h
  split at h
  · cases h
  · next hk =>
    cases policy with
    | fault => exact ⟨Nat.not_lt.mp hk, rfl⟩
    | mask => cases h
    | notPressed => cases h

theorem execRet_cases (s t : State) (h : exec .ret s = .next t) :
    Faults .ret s t ∨ ∃ a, s.stack.getLast? = some a ∧ t = s.dropTop.jump a := by
  simp only [exec, execRet] at h
  split at h
  · next a ha => cases h; exact .inr ⟨a, ha, rfl⟩
  · next hn => exact .inl ⟨_, .retUnderflow (List.getLast?_eq_none_iff.mp hn), h⟩

theorem execCall_cases (nnn : Addr) (s t : State) (h : exec (.call nnn) s = .next t) :
    Faults (.call nnn) s t ∨
      s.params.stackDepth ≠ some s.stack.length ∧ t = (s.push s.pc).jump nnn := by
  simp only [exec, execCall] at h
  split at h
  · next hfull => exact .inl ⟨_, .callOverflow nnn (s.stackFull_iff.mp hfull), h⟩
  · next hfull => cases h; exact .inr ⟨fun hd => hfull (s.stackFull_iff.mpr hd), rfl⟩

theorem execSkp_cases (x : RegIdx) (s t : State) (h : exec (.skp x) s = .next t) :
    Faults (.skp x) s t ∨ ∃ c, t = s.skipIf c := by
  simp only [exec, execSkp] at h
  split at h
  · next pressed _ => cases h; exact .inr ⟨pressed, rfl⟩
  · next hk =>
    obtain ⟨hindex, hpolicy⟩ := keyTest_outOfRange _ _ _ hk
    exact .inl ⟨_, .skpIndex x hindex hpolicy, h⟩

theorem execSknp_cases (x : RegIdx) (s t : State) (h : exec (.sknp x) s = .next t) :
    Faults (.sknp x) s t ∨ ∃ c, t = s.skipIf c := by
  simp only [exec, execSknp] at h
  split at h
  · next pressed _ => cases h; exact .inr ⟨!pressed, rfl⟩
  · next hk =>
    obtain ⟨hindex, hpolicy⟩ := keyTest_outOfRange _ _ _ hk
    exact .inl ⟨_, .sknpIndex x hindex hpolicy, h⟩

/-! ## What each instruction writes -/

/-- A faulting instruction writes pc, which it puts back, and the latch. -/
theorem Faults.writes {i : Instr} {s t : State} (h : Faults i s t) : Writes [.pc, .fault] s t := by
  obtain ⟨code, -, hraise⟩ := h
  exact s.writes_raise t code _ hraise

/-- Every instruction writes within its footprint. -/
theorem exec_writes (i : Instr) (s t : State) (h : exec i s = .next t) : Writes (footprint i) s t := by
  cases i with
  | cls => cases h; exact s.writes_setFb _
  | ret =>
    rcases execRet_cases s t h with hf | ⟨a, -, rfl⟩
    · exact hf.writes.mono (by simp [footprint])
    · simp [writes_iff, footprint]
  | call nnn =>
    rcases execCall_cases nnn s t h with hf | ⟨-, rfl⟩
    · exact hf.writes.mono (by simp [footprint])
    · simp [writes_iff, footprint]
  | jp | jpV0 => cases h; exact s.writes_jump _
  | seImm | sneImm | seReg | sneReg => cases h; exact s.writes_skipIf _
  | ldImm | addImm | ldReg | or | and | xor | ldVxDt => cases h; exact s.writes_writeV _ _
  | addReg | sub | shr | subn | shl => cases h; exact s.writes_writeResultAndFlag _ _ _
  | ldI | addIVx | ldFVx => cases h; exact s.writes_setI _
  | rnd => cases h; exact s.writes_randomInto _ _ _
  | drw => cases h; simp [writes_iff, footprint]
  | skp x =>
    rcases execSkp_cases x s t h with hf | ⟨c, rfl⟩
    · exact hf.writes
    · exact (s.writes_skipIf c).mono (by simp [footprint])
  | sknp x =>
    rcases execSknp_cases x s t h with hf | ⟨c, rfl⟩
    · exact hf.writes
    · exact (s.writes_skipIf c).mono (by simp [footprint])
  | ldVxK => cases h; exact s.writes_setWait _
  | ldDtVx => cases h; exact s.writes_setDt _
  | ldStVx => cases h; exact s.writes_setSt _
  | ldBVx | ldMemVx => cases h; exact s.writes_storeBytes _ _
  | ldVxMem => cases h; exact s.writes_loadRegs _

theorem params_notMem_footprint (i : Instr) : .params ∉ footprint i := by cases i <;> simp [footprint]

theorem keys_notMem_footprint (i : Instr) : .keys ∉ footprint i := by cases i <;> simp [footprint]

theorem exec_onlyChanges (i : Instr) (s t : State) (h : exec i s = .next t) : OnlyChanges (footprint i) s t :=
  (exec_writes i s t h).onlyChanges (params_notMem_footprint i)

theorem exec_params (i : Instr) (s t : State) (h : exec i s = .next t) : t.params = s.params :=
  exec_writes i s t h .params (params_notMem_footprint i)

theorem exec_keys (i : Instr) (s t : State) (h : exec i s = .next t) : t.keys = s.keys :=
  exec_writes i s t h .keys (keys_notMem_footprint i)

/-! ## The registers and the bytes among them -/

theorem OnlyChanges.onlyRegs {fs : List Field} {s t : State} (h : OnlyChanges fs s t) (hv : .v ∉ fs)
    (rs : List RegIdx) : OnlyRegs rs s t :=
  fun r _ => h .v hv r

theorem OnlyChanges.onlyBytes {fs : List Field} {s t : State} (h : OnlyChanges fs s t) (hm : .mem ∉ fs)
    (as : List Addr) : OnlyBytes as s t :=
  fun a _ => h .mem hm a

theorem State.onlyRegs_writeV (s : State) (x : RegIdx) (b : Byte) : OnlyRegs [x] s (s.writeV x b) := by
  intro r hr
  rw [State.readV_writeV, if_neg (List.ne_of_not_mem_cons hr)]

theorem State.onlyRegs_writeResultAndFlag (s : State) (x : RegIdx) (b : Byte) (c : Bool) :
    OnlyRegs [x, regF] s (s.writeResultAndFlag x b c) := by
  intro r hr
  simp only [List.mem_cons, List.not_mem_nil, or_false, not_or] at hr
  rw [State.readV_writeResultAndFlag, if_neg hr.2, if_neg hr.1]

theorem State.onlyRegs_loadRegs (s : State) (n : Nat) (hn : n ≤ 16) :
    OnlyRegs ((List.range n).map (BitVec.ofNat 4)) s (s.loadRegs n) := by
  intro r hr
  have hle : ¬ r.toNat < n := fun hlt =>
    hr (List.mem_map.mpr ⟨r.toNat, List.mem_range.mpr hlt, by simp⟩)
  rw [State.readV_loadRegs s n hn, if_neg hle]

/-- The stores at I reach no byte but those at `I + k` modulo 4096 (R146). -/
theorem State.onlyBytes_storeBytes (s : State) (bs : List Byte) (hbs : bs.length ≤ 4096) :
    OnlyBytes ((List.range bs.length).map s.indexAddr) s (s.storeBytes s.I bs) := by
  intro c hc
  have hle : ¬ (c - s.I).toNat < bs.length := fun hlt => by
    have haddr : s.indexAddr (c - s.I).toNat = c := by
      rw [State.indexAddr, BitVec.ofNat_toNat, BitVec.setWidth_eq, BitVec.add_comm, BitVec.sub_add_cancel]
    exact hc (List.mem_map.mpr ⟨_, List.mem_range.mpr hlt, haddr⟩)
  rw [State.memRead_storeBytes bs s s.I c hbs, dif_neg hle]

theorem exec_onlyRegs (i : Instr) (s t : State) (h : exec i s = .next t) : OnlyRegs (regsWritten i) s t := by
  have hc := exec_onlyChanges i s t h
  cases i with
  | ldImm | addImm | ldReg | or | and | xor | ldVxDt => cases h; exact s.onlyRegs_writeV _ _
  | addReg | sub | shr | subn | shl => cases h; exact s.onlyRegs_writeResultAndFlag _ _ _
  | rnd => cases h; exact s.drawn.onlyRegs_writeV _ _
  | drw x y n => cases h; exact (s.setFb (s.spriteDraw x y n).fb).onlyRegs_writeV _ _
  | ldVxMem x => cases h; exact s.onlyRegs_loadRegs _ (by have := x.isLt; omega)
  | _ => exact hc.onlyRegs (by simp [footprint]) _

theorem exec_onlyBytes (i : Instr) (s t : State) (h : exec i s = .next t) : OnlyBytes (bytesWritten s i) s t := by
  have hc := exec_onlyChanges i s t h
  cases i with
  | ldBVx x => cases h; exact s.onlyBytes_storeBytes (decimalDigits (s.readV x)) (by simp [decimalDigits])
  | ldMemVx x =>
    cases h
    have hlen := s.length_regsUpTo x
    have hstore := s.onlyBytes_storeBytes (s.regsUpTo x) (by have := x.isLt; omega)
    rwa [hlen] at hstore
  | _ => exact hc.onlyBytes (by simp [footprint]) _

/-- Settles O20: every instruction's writes, its registers and its bytes, by the law of the operation it calls. -/
theorem instructionsChangeOnlyTheirFootprint : Obligations.InstructionsChangeOnlyTheirFootprint :=
  fun i s t h => ⟨exec_onlyChanges i s t h, exec_onlyRegs i s t h, exec_onlyBytes i s t h⟩

/-! ## The cycles -/

/-- All that an executing cycle can do: the decoded instruction, the skip of an unrecognized word, or its fault. -/
theorem executingCycle_cases (s t : State) (h : executingCycle s = .next t) :
    (∃ i, decode s.fetchWord = .ok i ∧ exec i s.advance = .next t) ∨
    (∃ e, decode s.fetchWord = .error e ∧ s.params.lenientUnknown = true ∧ t = s.advance) ∨
    (∃ e, decode s.fetchWord = .error e ∧ s.params.lenientUnknown = false ∧
      s.advance.raise .unknownOpcode s.fetchWord = .next t) := by
  unfold executingCycle at h
  split at h
  · next i hi => exact .inl ⟨i, hi, h⟩
  · next e he =>
    unfold unknownOpcode at h
    split at h
    · next hl => cases h; exact .inr (.inl ⟨e, he, hl, rfl⟩)
    · next hl => exact .inr (.inr ⟨e, he, Bool.eq_false_iff.mpr hl, h⟩)

/-- All that a step can do: one of the three kinds of cycle (R90). -/
theorem step_cases (s t : State) (h : step s = .next t) :
    (∃ r, s.fault = some r ∧ t = s) ∨
    (∃ r, s.fault = none ∧ s.wait = some r ∧ waitingCycle r s = .next t) ∨
    (s.fault = none ∧ s.wait = none ∧ executingCycle s = .next t) := by
  cases hf : s.fault with
  | some r => rw [step_latched s r hf] at h; cases h; exact .inl ⟨r, rfl, rfl⟩
  | none =>
    cases hw : s.wait with
    | some r => exact .inr (.inl ⟨r, rfl, rfl, step_waiting s r hf hw ▸ h⟩)
    | none => exact .inr (.inr ⟨rfl, rfl, step_executing s hf hw ▸ h⟩)

theorem waitingCycle_writes (r : RegIdx) (s t : State) (h : waitingCycle r s = .next t) :
    Writes [.v, .wait] s t := by
  rcases waitingCycle_cases r s t h with ⟨k, -, rfl⟩ | ⟨-, rfl⟩
  · simp [writes_iff]
  · exact .refl _ _

theorem executingCycle_keys_params (s t : State) (h : executingCycle s = .next t) :
    t.keys = s.keys ∧ t.params = s.params := by
  rcases executingCycle_cases s t h with ⟨i, -, hexec⟩ | ⟨-, -, -, rfl⟩ | ⟨-, -, -, hraise⟩
  · exact ⟨exec_keys i s.advance t hexec, exec_params i s.advance t hexec⟩
  · exact ⟨rfl, rfl⟩
  · have hw := s.advance.writes_raise t _ _ hraise
    exact ⟨hw .keys (by decide), hw .params (by decide)⟩

/-- Settles O21: keys and parameters are outside what each kind of cycle writes. -/
theorem cyclesNeverChangeKeysOrParameters : Obligations.CyclesNeverChangeKeysOrParameters := by
  intro s t h
  rcases step_cases s t h with ⟨-, -, rfl⟩ | ⟨r, -, -, hwait⟩ | ⟨-, -, hexec⟩
  · exact ⟨rfl, rfl⟩
  · have hw := waitingCycle_writes r s t hwait
    exact ⟨hw .keys (by decide), hw .params (by decide)⟩
  · exact executingCycle_keys_params s t hexec

end Sys2Proof.Machine
end

