-- ==== Sys2Proof/Proofs/DecodedWords.lean ====
section
/-! What a decoded word is, and that every word a row of the opcode table covers decodes: the two facts that make a
fault's record and its cause readable from the fetched word. -/

namespace Sys2Proof

/-! ## A word whose fields are known -/

theorem eq_ofNat_of_toNat {n k : Nat} {b : BitVec n} (h : b.toNat = k) : b = BitVec.ofNat n k := by
  rw [← h, BitVec.ofNat_toNat, BitVec.setWidth_eq]

theorem formatNNN_of_group {w : Word} {k : Nat} (h : (opGroup w).toNat = k) :
    formatNNN (BitVec.ofNat 4 k) (opNNN w) = w := by
  rw [← eq_ofNat_of_toNat h, formatNNN_fields]

theorem formatXNN_of_group {w : Word} {k : Nat} (h : (opGroup w).toNat = k) :
    formatXNN (BitVec.ofNat 4 k) (opX w) (opNN w) = w := by
  rw [← eq_ofNat_of_toNat h, formatXNN_fields]

theorem formatXYN_of_group {w : Word} {k : Nat} (h : (opGroup w).toNat = k) :
    formatXYN (BitVec.ofNat 4 k) (opX w) (opY w) (opN w) = w := by
  rw [← eq_ofNat_of_toNat h, formatXYN_fields]

/-! ## The encoding of what a group decodes to -/

theorem encode_of_decodeGroup0 {nnn : Addr} {i : Instr} (h : decodeGroup0 nnn = .ok i) :
    encode i = formatNNN 0x0 nnn := by
  unfold decodeGroup0 at h
  split at h
  · next hn => cases h; rw [hn]; rfl
  · split at h
    · next hn => cases h; rw [hn]; rfl
    · cases h

theorem encode_of_decodeGroup8 {x y : RegIdx} {n : BitVec 4} {i : Instr} (h : decodeGroup8 x y n = .ok i) :
    encode i = formatXYN 0x8 x y n := by
  unfold decodeGroup8 at h
  split at h
  case h_10 => cases h
  all_goals next hn => cases h; rw [eq_ofNat_of_toNat hn]; rfl

theorem encode_of_decodeGroupE {x : RegIdx} {nn : Byte} {i : Instr} (h : decodeGroupE x nn = .ok i) :
    encode i = formatXNN 0xE x nn := by
  unfold decodeGroupE at h
  split at h
  case h_3 => cases h
  all_goals next hn => cases h; rw [eq_ofNat_of_toNat hn]; rfl

theorem encode_of_decodeGroupF {x : RegIdx} {nn : Byte} {i : Instr} (h : decodeGroupF x nn = .ok i) :
    encode i = formatXNN 0xF x nn := by
  unfold decodeGroupF at h
  split at h
  case h_10 => cases h
  all_goals next hn => cases h; rw [eq_ofNat_of_toNat hn]; rfl

/-- A word that decodes is the word of the instruction it decodes to. -/
theorem encode_of_decode {w : Word} {i : Instr} (h : decode w = .ok i) : encode i = w := by
  unfold decode at h
  split at h
  case h_1 hg => exact (encode_of_decodeGroup0 h).trans (formatNNN_of_group hg)
  case h_2 hg | h_3 hg | h_11 hg | h_12 hg => cases h; exact formatNNN_of_group hg
  case h_4 hg | h_5 hg | h_7 hg | h_8 hg | h_13 hg => cases h; exact formatXNN_of_group hg
  case h_6 hg | h_10 hg =>
    split at h
    · next hn => cases h; rw [encode, ← hn]; exact formatXYN_of_group hg
    · cases h
  case h_9 hg => exact (encode_of_decodeGroup8 h).trans (formatXYN_of_group hg)
  case h_14 hg => cases h; exact formatXYN_of_group hg
  case h_15 hg => exact (encode_of_decodeGroupE h).trans (formatXNN_of_group hg)
  case h_16 =>
    have hg : (opGroup w).toNat = 15 := by have := (opGroup w).isLt; simp only [imp_false] at *; omega
    exact (encode_of_decodeGroupF h).trans (formatXNN_of_group hg)

/-! ## A word that a row of the table covers -/

/-- A field that the mask keeps whole is that field of the masked word. -/
theorem extractLsb'_of_masked {w mask bits : Word} (h : w &&& mask = bits) (start len : Nat)
    (hm : mask.extractLsb' start len = BitVec.allOnes len) : w.extractLsb' start len = bits.extractLsb' start len := by
  rw [← h, BitVec.extractLsb'_and, hm, BitVec.and_allOnes]

/-- Every row of the table fixes the fields by which the decoder chooses, so its words decode (R74, R80). -/
theorem decodes_of_covers {w : Word} {r : OpcodeRow} (hr : r ∈ opcodeTable) (hc : r.covers w = true) :
    ∃ i, decode w = .ok i := by
  have hw : w &&& r.mask = r.bits := beq_iff_eq.mp hc
  have hgroup : _ → opGroup w = _ := extractLsb'_of_masked hw 12 4
  have hn : _ → opN w = _ := extractLsb'_of_masked hw 0 4
  have hnn : _ → opNN w = _ := extractLsb'_of_masked hw 0 8
  have hnnn : _ → opNNN w = _ := extractLsb'_of_masked hw 0 12
  clear hw hc
  simp only [opcodeTable, List.cons_append, List.nil_append, List.mem_cons, List.not_mem_nil, or_false] at hr
  rcases hr with rfl | rfl | rfl | rfl | rfl | rfl | rfl | rfl | rfl | rfl | rfl | rfl | rfl | rfl | rfl | rfl | rfl |
    rfl | rfl | rfl | rfl | rfl | rfl | rfl | rfl | rfl | rfl | rfl | rfl | rfl | rfl | rfl | rfl | rfl
  all_goals
    simp_all [BitVec.allOnes, decode, decodeGroup0, decodeGroup8, decodeGroupE, decodeGroupF]

/-- A word that the decoder rejects matches no row of the table. -/
theorem not_wordRecognized_of_decode {w : Word} {e : DecodeError} (h : decode w = .error e) :
    wordRecognized w = false := by
  refine Bool.eq_false_iff.mpr fun hrec => ?_
  obtain ⟨r, hr, hc⟩ := List.any_eq_true.mp hrec
  obtain ⟨i, hi⟩ := decodes_of_covers hr hc
  rw [h] at hi
  cases hi

end Sys2Proof
end

