-- ==== Sys2Proof/Proofs/Invariant.lean ====
section
/-! The canonical form determines the memory; the construction meets the invariant and every cycle keeps it. -/

namespace Sys2Proof.Machine

/-! ## A canonical memory is determined by what it reads as -/

/-- Only a listed byte reads as something else than the construction contents. -/
theorem Memory.mem_of_read_ne (font : Vector Byte 80) (m : Memory) (a : Nat)
    (h : Memory.read font m a ≠ Memory.constructed font a) : (a, Memory.read font m a) ∈ m := by
  induction m with
  | nil => exact absurd rfl h
  | cons d rest ih =>
    by_cases hd : d.1 = a
    · simp [Memory.read, ← hd]
    · simp only [Memory.read, if_neg hd] at h ⊢
      exact List.mem_cons_of_mem _ (ih h)

/-- A rising list reads as listed. -/
theorem Memory.read_of_mem (font : Vector Byte 80) (m : Memory) (c : Host.Cell)
    (hm : m.Pairwise (fun c d => c.1 < d.1)) (hc : c ∈ m) : Memory.read font m c.1 = c.2 := by
  induction m with
  | nil => cases hc
  | cons d rest ih =>
    obtain ⟨hd, hrest⟩ := List.pairwise_cons.mp hm
    rcases List.mem_cons.mp hc with rfl | hc
    · simp [Memory.read]
    · rw [Memory.read, if_neg (Nat.ne_of_lt (hd c hc)), ih hrest hc]

/-- A byte listed in a canonical memory is listed in every memory that reads alike. -/
theorem Memory.mem_of_reads_alike (font : Vector Byte 80) (m n : Memory) (hm : Memory.wf font m)
    (h : ∀ a, a < Config.memSize → Memory.read font m a = Memory.read font n a) (c : Host.Cell) (hc : c ∈ m) :
    c ∈ n := by
  obtain ⟨hrising, hcells⟩ := hm
  obtain ⟨hlt, hne⟩ := hcells c hc
  have hread : Memory.read font n c.1 = c.2 := by rw [← h c.1 hlt, Memory.read_of_mem font m c hrising hc]
  have hmem := Memory.mem_of_read_ne font n c.1 (hread ▸ hne)
  rwa [hread] at hmem

/-- Settles O6: memories that read alike list the same bytes, and a rising list is determined by its members. -/
theorem canonicalMemoriesThatReadAlikeAreEqual : Obligations.CanonicalMemoriesThatReadAlikeAreEqual := by
  intro font m n hm hn h
  have hmn : m ⊆ n := Memory.mem_of_reads_alike font m n hm h
  have hnm : n ⊆ m := Memory.mem_of_reads_alike font n m hn (fun a ha => (h a ha).symm)
  have : Std.Irrefl (fun c d : Host.Cell => c.1 < d.1) := ⟨fun c => Nat.lt_irrefl c.1⟩
  have : Std.Antisymm (fun c d : Host.Cell => c.1 < d.1) := ⟨fun c d hcd hdc => absurd hdc (Nat.lt_asymm hcd)⟩
  exact List.Subset.antisymm_of_pairwise hm.1 hn.1 hmn hnm

/-! ## The state after construction -/

section
variable (p : Params)

theorem State.construct_readV (r : RegIdx) : (State.construct p).readV r = 0 :=
  Vector.getElem_replicate _

theorem State.construct_memRead (a : Addr) :
    (State.construct p).memRead a = Memory.constructed p.fontset a.toNat := rfl

theorem State.construct_getPixel (x y : Nat) : getPixel x y (State.construct p) = false :=
  pixel_clearFramebuffer x y

theorem Inv.construct : Inv (State.construct p) where
  mem_canonical := Memory.nil_wf p.fontset
  stack_bounded d _ := Nat.zero_le d
  latch_precise _ hr := nomatch hr

end

/-- Settles O9: the entries of R35 by the reads of the constructed state, the defaults of R8 by definition. -/
theorem constructionState : Obligations.ConstructionState := by
  refine ⟨fun p => ?_, rfl, rfl, rfl, rfl, rfl⟩
  refine ⟨rfl, State.construct_readV p, rfl, rfl, rfl, rfl, rfl, rfl, rfl, State.construct_getPixel p,
    fun a ha => ?_, fun a ha => ?_⟩
  · rw [State.construct_memRead, Memory.constructed, dif_pos ha]
  · rw [State.construct_memRead, Memory.constructed, dif_neg (Nat.not_lt.mpr ha)]

/-- Settles O10: an empty memory, an empty stack and no latch. -/
theorem constructionMeetsTheInvariant : Obligations.ConstructionMeetsTheInvariant :=
  ⟨.construct Config.defaults, .construct⟩

/-! ## What a completing instruction does to the latch, the stack and the memory -/

/-- The stack after an instruction: kept, popped, or pushed onto when it was not full. -/
inductive StackStep (s t : State) : Prop where
  | kept : t.stack = s.stack → StackStep s t
  | popped : t.stack = s.stack.dropLast → StackStep s t
  | pushed : s.params.stackDepth ≠ some s.stack.length → t.stack = s.stack ++ [s.pc] → StackStep s t

/-- Every instruction faults, or completes with the latch kept and the stack within its capacity. -/
theorem exec_faults_or_completes (i : Instr) (s t : State) (h : exec i s = .next t) :
    Faults i s t ∨ t.fault = s.fault ∧ StackStep s t := by
  have hw := exec_writes i s t h
  cases i with
  | ret =>
    rcases execRet_cases s t h with hf | ⟨a, -, rfl⟩
    · exact .inl hf
    · exact .inr ⟨rfl, .popped rfl⟩
  | call nnn =>
    rcases execCall_cases nnn s t h with hf | ⟨hroom, rfl⟩
    · exact .inl hf
    · exact .inr ⟨rfl, .pushed hroom rfl⟩
  | skp x =>
    rcases execSkp_cases x s t h with hf | ⟨c, rfl⟩
    · exact .inl hf
    · exact .inr ⟨s.writes_skipIf c .fault (by decide), .kept (s.writes_skipIf c .stack (by decide))⟩
  | sknp x =>
    rcases execSknp_cases x s t h with hf | ⟨c, rfl⟩
    · exact .inl hf
    · exact .inr ⟨s.writes_skipIf c .fault (by decide), .kept (s.writes_skipIf c .stack (by decide))⟩
  | _ => exact .inr ⟨hw .fault (by simp [footprint]), .kept (hw .stack (by simp [footprint]))⟩

theorem StackStep.bounded {s t : State} (h : StackStep s t) (d : Nat) (hd : s.params.stackDepth = some d)
    (hs : s.stack.length ≤ d) : t.stack.length ≤ d := by
  cases h with
  | kept ht => rwa [ht]
  | popped ht => rw [ht, List.length_dropLast]; omega
  | pushed hroom ht =>
    have hne : d ≠ s.stack.length := fun he => hroom (he ▸ hd)
    rw [ht, List.length_append, List.length_singleton]; omega

/-- Every instruction keeps the canonical form: only Fx33 and Fx55 write memory, by `storeBytes`. -/
theorem exec_keeps_wf (i : Instr) (s t : State) (h : exec i s = .next t) (hwf : Memory.wf s.params.fontset s.mem) :
    Memory.wf t.params.fontset t.mem := by
  rw [exec_params i s t h]
  have hw := exec_writes i s t h
  cases i with
  | ldBVx | ldMemVx => cases h; exact State.storeBytes_wf _ s s.I hwf
  | _ => exact (hw .mem (by simp [footprint]) : t.mem = s.mem) ▸ hwf

/-! ## The invariant under each kind of cycle -/

/-- A state without a latch meets the invariant by its memory and its stack. -/
theorem Inv.of_unlatched {t : State} (hm : Memory.wf t.params.fontset t.mem)
    (hs : ∀ d, t.params.stackDepth = some d → t.stack.length ≤ d) (hf : t.fault = none) : Inv t where
  mem_canonical := hm
  stack_bounded := hs
  latch_precise _ hr := nomatch hf.symm.trans hr

/-- The invariant carries over to a state without a latch that has kept memory, stack and parameters. -/
theorem Inv.of_writes {fs : List Field} {s t : State} (h : Inv s) (hw : Writes fs s t) (hf : t.fault = none)
    (hfs : .mem ∉ fs ∧ .stack ∉ fs ∧ .params ∉ fs) : Inv t := by
  obtain ⟨hmem, hstack, hparams⟩ := hfs
  have hm : t.mem = s.mem := hw .mem hmem
  have hs : t.stack = s.stack := hw .stack hstack
  have hp : t.params = s.params := hw .params hparams
  exact .of_unlatched (by rw [hm, hp]; exact h.mem_canonical) (by rw [hs, hp]; exact h.stack_bounded) hf

/-- Latching a fault whose cause holds keeps the invariant: nothing else changes. -/
theorem Inv.latch {s t : State} {code : Fault} (h : Inv s) (hw : s.wait = none) (hc : Causes s code)
    (ht : s.advance.raise code s.fetchWord = .next t) : Inv t := by
  rw [raise_advance] at ht
  cases ht
  exact
    { mem_canonical := h.mem_canonical
      stack_bounded := h.stack_bounded
      latch_precise := by rintro r ⟨⟩; exact ⟨rfl, rfl, hc, hw⟩ }

/-- The fault an instruction raises in a cycle has its cause in the fetched word and the state before. -/
theorem Raises.causes {s : State} {i : Instr} {code : Fault} (h : Raises s.advance i code)
    (hword : s.fetchWord = encode i) : Causes s code := by
  cases h with
  | retUnderflow hempty => exact ⟨hword, hempty⟩
  | callOverflow nnn hfull => exact ⟨by rw [hword]; exact Laws.EncodingRow.nnn_covers 0x2 nnn, hfull⟩
  | skpIndex x hindex hpolicy =>
    exact ⟨.inl (by rw [hword]; exact Laws.EncodingRow.xfn_covers 0xE x 0x9E),
      by rw [hword, encode, opX_formatXNN]; exact hindex, hpolicy⟩
  | sknpIndex x hindex hpolicy =>
    exact ⟨.inr (by rw [hword]; exact Laws.EncodingRow.xfn_covers 0xE x 0xA1),
      by rw [hword, encode, opX_formatXNN]; exact hindex, hpolicy⟩

theorem waitingCycle_keeps_inv (r : RegIdx) (s t : State) (h : waitingCycle r s = .next t) (hs : Inv s)
    (hf : s.fault = none) : Inv t := by
  have hw := waitingCycle_writes r s t h
  have hfault : t.fault = s.fault := hw .fault (by decide)
  exact hs.of_writes hw (hfault.trans hf) (by decide)

theorem exec_advance_keeps_inv (i : Instr) (s t : State) (h : exec i s.advance = .next t)
    (hi : decode s.fetchWord = .ok i) (hs : Inv s) (hf : s.fault = none) (hw : s.wait = none) : Inv t := by
  have hword : s.fetchWord = encode i := (encode_of_decode hi).symm
  rcases exec_faults_or_completes i s.advance t h with ⟨code, hraises, hraise⟩ | ⟨hfault, hstack⟩
  · exact hs.latch hw (hraises.causes hword) (hword ▸ hraise)
  · refine .of_unlatched (exec_keeps_wf i s.advance t h hs.mem_canonical) (fun d hd => ?_) (hfault.trans hf)
    have hd' : s.params.stackDepth = some d := by rw [← hd, exec_params i s.advance t h]; rfl
    exact hstack.bounded d hd' (hs.stack_bounded d hd')

theorem executingCycle_keeps_inv (s t : State) (h : executingCycle s = .next t) (hs : Inv s)
    (hf : s.fault = none) (hw : s.wait = none) : Inv t := by
  rcases executingCycle_cases s t h with ⟨i, hi, hexec⟩ | ⟨-, -, -, rfl⟩ | ⟨e, he, hstrict, hraise⟩
  · exact exec_advance_keeps_inv i s t hexec hi hs hf hw
  · exact hs.of_writes (s.writes_jump (s.pc + 2)) hf (by decide)
  · exact hs.latch (code := .unknownOpcode) hw ⟨not_wordRecognized_of_decode he, hstrict⟩ hraise

/-- Settles O11: a latched cycle leaves the state, a waiting one memory and stack, and an executing one completes
within the capacity or latches a fault whose cause holds. -/
theorem stepKeepsTheInvariant : Obligations.StepKeepsTheInvariant := by
  intro s t hs h
  rcases step_cases s t h with ⟨-, -, rfl⟩ | ⟨r, hf, -, hwait⟩ | ⟨hf, hw, hexec⟩
  · exact hs
  · exact waitingCycle_keeps_inv r s t hwait hs hf
  · exact executingCycle_keeps_inv s t hexec hs hf hw

end Sys2Proof.Machine
end

