-- ==== Sys2Proof/Proofs/Fetch.lean ====
section
/-! The two bytes of the fetched word, and the obligations on fetch and on its coherence with stores. -/

namespace Sys2Proof.Machine

/-- The opcode's high byte is the one at pc, whatever pc is (R55, R57). -/
@[simp] theorem State.fetchWord_hi (s : State) : s.fetchWord.extractLsb' 8 8 = s.memRead s.pc :=
  wordOfBytes_hi _ _

/-- The opcode's low byte is the one after pc, modulo 4096 (R55, R52). -/
@[simp] theorem State.fetchWord_lo (s : State) : s.fetchWord.extractLsb' 0 8 = s.memRead (s.pc + 1) :=
  wordOfBytes_lo _ _

/-- Settles O7: the word of two bytes gives the bytes back. -/
theorem fetchIsBigEndian : Obligations.FetchIsBigEndian :=
  fun s => ⟨s.fetchWord_hi, s.fetchWord_lo⟩

/-- Consecutive indices name consecutive bytes, over the top of memory too (R146, R52). -/
theorem State.indexAddr_add_one (s : State) (k : Nat) : s.indexAddr k + 1 = s.indexAddr (k + 1) := by
  rw [State.indexAddr, State.indexAddr, BitVec.ofNat_add, ← BitVec.add_assoc, BitVec.ofNat_eq_ofNat]

/-- The law of the stores at I, by index: the k-th byte stored is read back at `I + k` (R146). -/
theorem State.memRead_storeBytes_indexAddr (s : State) (bs : List Byte) (hbs : bs.length ≤ 4096) (k : Nat)
    (hk : k < bs.length) : (s.storeBytes s.I bs).memRead (s.indexAddr k) = bs[k] := by
  have hoffset : (s.indexAddr k - s.I).toNat = k := by
    rw [State.indexAddr, BitVec.add_comm, BitVec.add_sub_cancel, BitVec.toNat_ofNat, Nat.mod_eq_of_lt (by omega)]
  rw [State.memRead_storeBytes bs s s.I _ hbs, dif_pos (by omega)]
  simp only [hoffset]

/-- Fx55 leaves `V[k]` at `I + k` (R144). -/
theorem execLdMemVx_memRead (x : RegIdx) (s t : State) (h : exec (.ldMemVx x) s = .next t) (k : Nat)
    (hk : k ≤ x.toNat) : t.memRead (s.indexAddr k) = s.readV (BitVec.ofNat 4 k) := by
  cases h
  have hlen := s.length_regsUpTo x
  rw [s.memRead_storeBytes_indexAddr _ (by omega) k (by omega), State.getElem_regsUpTo]

/-- Settles O8: the two bytes the fetch reads are two neighbouring bytes of the store. -/
theorem storedBytesAreFetchedNext : Obligations.StoredBytesAreFetchedNext := by
  intro s t x j hj h hpc
  have hi := execLdMemVx_memRead x s t h j (by omega)
  have lo := execLdMemVx_memRead x s t h (j + 1) (by omega)
  rw [State.fetchWord, hpc, s.indexAddr_add_one, hi, lo]

end Sys2Proof.Machine
end

