-- ==== Sys2Proof/Proofs/Encoding.lean ====
section
/-! The encoder and the decoder are inverse to each other, and the decoder agrees with the mask and match columns of
the opcode table (spec/30_encoding.md R71 to R81). -/

namespace Sys2Proof

/-! ## Decoding an encoding -/

/-- The decoder recovers group and fields from the format the encoder wrote; a function code then selects the arm
(R72, R74). -/
@[simp] theorem decode_encode (i : Instr) : decode (encode i) = .ok i := by
  cases i with
  | cls | ret => decide
  | jp nnn | call nnn | ldI nnn | jpV0 nnn => simp [encode, decode]
  | seImm x nn | sneImm x nn | ldImm x nn | addImm x nn | rnd x nn => simp [encode, decode]
  | seReg x y | sneReg x y | drw x y n => simp [encode, decode]
  | ldReg x y | or x y | and x y | xor x y | addReg x y | sub x y | shr x y | subn x y | shl x y =>
    simp [encode, decode, decodeGroup8]
  | skp x | sknp x => simp [encode, decode, decodeGroupE]
  | ldVxDt x | ldVxK x | ldDtVx x | ldStVx x | addIVx x | ldFVx x | ldBVx x | ldMemVx x | ldVxMem x =>
    simp [encode, decode, decodeGroupF]

/-- The bytes of an instruction decode to it and leave the bytes after them (R55, R70). -/
theorem decodeBytes_encodeBytes_append (i : Instr) (rest : List Byte) :
    decodeBytes (encodeBytes i ++ rest) = .ok (i, rest) := by
  simp [encodeBytes, decodeBytes]

/-- Settles O1, on words by the fields of each format, on bytes because the two bytes join to the word. -/
theorem decodeOfEncodeIsTheInstruction : Obligations.DecodeOfEncodeIsTheInstruction :=
  fun i => ⟨decode_encode i, decodeBytes_encodeBytes_append i⟩

/-- Settles O2: the decoder's choice of an arm fixes every bit that the arm does not read as an operand. -/
theorem encodeOfDecodeIsTheWord : Obligations.EncodeOfDecodeIsTheWord :=
  fun _ _ => encode_of_decode

/-! ## The rows of the opcode table -/

/-- The row of an instruction's mnemonic covers its word, for all 34 mnemonics (R80). -/
theorem exists_row_covers_encode : ∀ i : Instr, Laws.EncodingRow.Statement i
  | .cls => Laws.EncodingRow.cls
  | .ret => Laws.EncodingRow.ret
  | .jp nnn => Laws.EncodingRow.jp nnn
  | .call nnn => Laws.EncodingRow.call nnn
  | .seImm x nn => Laws.EncodingRow.seImm x nn
  | .sneImm x nn => Laws.EncodingRow.sneImm x nn
  | .seReg x y => Laws.EncodingRow.seReg x y
  | .ldImm x nn => Laws.EncodingRow.ldImm x nn
  | .addImm x nn => Laws.EncodingRow.addImm x nn
  | .ldReg x y => Laws.EncodingRow.ldReg x y
  | .or x y => Laws.EncodingRow.or x y
  | .and x y => Laws.EncodingRow.and x y
  | .xor x y => Laws.EncodingRow.xor x y
  | .addReg x y => Laws.EncodingRow.addReg x y
  | .sub x y => Laws.EncodingRow.sub x y
  | .shr x y => Laws.EncodingRow.shr x y
  | .subn x y => Laws.EncodingRow.subn x y
  | .shl x y => Laws.EncodingRow.shl x y
  | .sneReg x y => Laws.EncodingRow.sneReg x y
  | .ldI nnn => Laws.EncodingRow.ldI nnn
  | .jpV0 nnn => Laws.EncodingRow.jpV0 nnn
  | .rnd x nn => Laws.EncodingRow.rnd x nn
  | .drw x y n => Laws.EncodingRow.drw x y n
  | .skp x => Laws.EncodingRow.skp x
  | .sknp x => Laws.EncodingRow.sknp x
  | .ldVxDt x => Laws.EncodingRow.ldVxDt x
  | .ldVxK x => Laws.EncodingRow.ldVxK x
  | .ldDtVx x => Laws.EncodingRow.ldDtVx x
  | .ldStVx x => Laws.EncodingRow.ldStVx x
  | .addIVx x => Laws.EncodingRow.addIVx x
  | .ldFVx x => Laws.EncodingRow.ldFVx x
  | .ldBVx x => Laws.EncodingRow.ldBVx x
  | .ldMemVx x => Laws.EncodingRow.ldMemVx x
  | .ldVxMem x => Laws.EncodingRow.ldVxMem x

/-- Two rows that cover one word agree on the bits both fix. -/
theorem OpcodeRow.bits_agree_of_covers {q r : OpcodeRow} {w : Word} (hq : q.covers w = true)
    (hr : r.covers w = true) : q.bits &&& r.mask = r.bits &&& q.mask := by
  rw [← beq_iff_eq.mp hq, ← beq_iff_eq.mp hr, BitVec.and_assoc, BitVec.and_comm q.mask, BitVec.and_assoc]

/-- Any two rows of the table differ in a bit that both fix: the rows do not overlap (R74). -/
theorem opcodeTable_bits_differ :
    opcodeTable.Pairwise fun q r => q.bits &&& r.mask ≠ r.bits &&& q.mask := by
  decide

/-- The rows of the table that cover a word are at most one. -/
theorem filter_covers_eq_singleton {w : Word} {r : OpcodeRow} (hr : r ∈ opcodeTable) (hc : r.covers w = true) :
    opcodeTable.filter (·.covers w) = [r] := by
  obtain ⟨before, after, htable⟩ := List.append_of_mem hr
  have hdisjoint := opcodeTable_bits_differ
  rw [htable, List.pairwise_append, List.pairwise_cons] at hdisjoint
  obtain ⟨-, ⟨hafter, -⟩, hbefore⟩ := hdisjoint
  have hnone_before : before.filter (·.covers w) = [] :=
    List.filter_eq_nil_iff.mpr fun q hq hqc =>
      hbefore q hq r List.mem_cons_self (OpcodeRow.bits_agree_of_covers hqc hc)
  have hnone_after : after.filter (·.covers w) = [] :=
    List.filter_eq_nil_iff.mpr fun q hq hqc => hafter q hq (OpcodeRow.bits_agree_of_covers hc hqc)
  rw [htable, List.filter_append, hnone_before, List.filter_cons, if_pos hc, hnone_after, List.nil_append]

/-- Settles O3: a decoded word is an encoding, which its own row covers and no other; a rejected word no row covers. -/
theorem decodeAgreesWithTheOpcodeTable : Obligations.DecodeAgreesWithTheOpcodeTable := by
  intro w
  cases h : decode w with
  | ok i =>
    obtain ⟨r, hr, hmnemonic, hc⟩ := exists_row_covers_encode i
    rw [encode_of_decode h] at hc
    rw [filter_covers_eq_singleton hr hc, List.map_singleton, hmnemonic]
  | error e =>
    have hnone : opcodeTable.filter (·.covers w) = [] :=
      List.filter_eq_nil_iff.mpr (List.any_eq_false.mp (not_wordRecognized_of_decode h))
    rw [hnone, List.map_nil]

/-- Settles O4: the decoder run on the sample words. -/
theorem sampleWordsDecode : Obligations.SampleWordsDecode := by
  unfold Obligations.SampleWordsDecode
  decide

end Sys2Proof
end

