-- ==== Sys2Proof/Proofs/Cycle.lean ====
section
/-! The obligations on `cycle()` (spec/40_cycle.md R90 to R100), one kind of cycle after the other: latched, waiting,
executing. -/

namespace Sys2Proof

/-- A word that decodes is covered by the row of its instruction (R80). -/
theorem wordRecognized_of_decode {w : Word} {i : Instr} (h : decode w = .ok i) : wordRecognized w = true := by
  obtain ⟨r, hr, -, hc⟩ := exists_row_covers_encode i
  rw [encode_of_decode h] at hc
  exact List.any_eq_true.mpr ⟨r, hr, hc⟩

theorem exists_decode_error_of_not_wordRecognized {w : Word} (h : wordRecognized w = false) :
    ∃ e, decode w = .error e := by
  cases hd : decode w with
  | ok i => exact absurd (wordRecognized_of_decode hd) (Bool.eq_false_iff.mp h)
  | error e => exact ⟨e, rfl⟩

end Sys2Proof

namespace Sys2Proof.Machine

/-! ## The result of a cycle -/

theorem State.cycleResult_of_unlatched {t : State} (h : t.fault = none) : t.cycleResult = .ok := by
  rw [State.cycleResult, h]

theorem State.cycleResult_of_latched {t : State} {r : FaultRecord} (h : t.fault = some r) :
    t.cycleResult = .fault r := by
  rw [State.cycleResult, h]

/-! ## Latched and waiting cycles -/

/-- Settles O16: the latch is looked at first, so the wait plays no part (R90, R98). -/
theorem latchedCycleChangesNothing : Obligations.LatchedCycleChangesNothing :=
  fun s r h => ⟨step_latched s r h, State.cycleResult_of_latched h⟩

theorem waitingCycle_of_lowestKey {s : State} {k : Nat} (r : RegIdx) (h : lowestKey s.keys = some k) :
    waitingCycle r s = .next ((s.writeV r (BitVec.ofNat 8 k)).setWait none) := by
  rw [waitingCycle, h]

theorem waitingCycle_of_no_key {s : State} (r : RegIdx) (h : lowestKey s.keys = none) :
    waitingCycle r s = .next s := by
  rw [waitingCycle, h]

/-- Settles O15: `lowestKey` is none exactly when no key is pressed, and else the least pressed key. -/
theorem waitingCycleTakesTheLowestKey : Obligations.WaitingCycleTakesTheLowestKey := by
  intro s r hf hw
  rw [step_waiting s r hf hw]
  refine ⟨fun hkeys => ?_, fun hkeys => ?_, fun t h => ?_⟩
  · exact waitingCycle_of_no_key r ((lowestKey_none s.keys).mpr hkeys)
  · obtain ⟨k, hk⟩ := Option.ne_none_iff_exists'.mp (mt (lowestKey_none s.keys).mp hkeys)
    have hstep := waitingCycle_of_lowestKey r hk
    obtain ⟨hlt, hpressed, hleast⟩ := lowestKey_some s.keys k hk
    exact ⟨_, k, hstep, hlt, hpressed, hleast, by simp, rfl, s.onlyRegs_writeV r _,
      (waitingCycle_writes r s _ hstep).onlyChanges (by decide)⟩
  · have hfault : t.fault = s.fault := waitingCycle_writes r s t h .fault (by decide)
    exact State.cycleResult_of_unlatched (hfault.trans hf)

/-! ## Executing cycles -/

theorem executingCycle_of_decode {s : State} {i : Instr} (h : decode s.fetchWord = .ok i) :
    executingCycle s = exec i s.advance := by
  rw [executingCycle, h]

theorem executingCycle_of_decode_error {s : State} {e : DecodeError} (h : decode s.fetchWord = .error e) :
    executingCycle s = unknownOpcode s.fetchWord s.advance := by
  rw [executingCycle, h]

/-- In strict mode the fault undoes the advance (R95, R97). -/
theorem unknownOpcode_advance_of_strict {s : State} (op : Word) (h : s.params.lenientUnknown = false) :
    unknownOpcode op s.advance =
      .next { s with fault := some { code := .unknownOpcode, pc := s.pc, opcode := op } } := by
  simp only [unknownOpcode, State.advance_params, h, Bool.false_eq_true, if_false, raise_advance]

theorem unknownOpcode_advance_of_lenient {s : State} (op : Word) (h : s.params.lenientUnknown = true) :
    unknownOpcode op s.advance = .next s.advance := by
  simp only [unknownOpcode, State.advance_params, h, if_true]

/-- Settles O13: the state whose pc is advanced by 2 is `s.advance`. -/
theorem stepRunsTheDecodedInstruction : Obligations.StepRunsTheDecodedInstruction :=
  fun s _ hf hw hi => (step_executing s hf hw).trans (executingCycle_of_decode hi)

/-- Settles O14: a word of no row does not decode; the fault undoes the advance, the no-op keeps it. -/
theorem unrecognizedWordFaultsOrIsSkipped : Obligations.UnrecognizedWordFaultsOrIsSkipped := by
  intro s hf hw hrec
  obtain ⟨e, he⟩ := exists_decode_error_of_not_wordRecognized hrec
  rw [step_executing s hf hw, executingCycle_of_decode_error he]
  exact ⟨unknownOpcode_advance_of_strict _, unknownOpcode_advance_of_lenient _⟩

/-! ## Every cycle goes on -/

theorem waitingCycle_next (r : RegIdx) (s : State) : ∃ t, waitingCycle r s = .next t := by
  cases hk : lowestKey s.keys with
  | some k => exact ⟨_, waitingCycle_of_lowestKey r hk⟩
  | none => exact ⟨_, waitingCycle_of_no_key r hk⟩

theorem executingCycle_next (s : State) : ∃ t, executingCycle s = .next t := by
  cases hd : decode s.fetchWord with
  | ok i => rw [executingCycle_of_decode hd]; exact exec_next i s.advance
  | error e =>
    rw [executingCycle_of_decode_error hd]
    cases hl : s.params.lenientUnknown with
    | true => exact ⟨_, unknownOpcode_advance_of_lenient _ hl⟩
    | false => exact ⟨_, unknownOpcode_advance_of_strict _ hl⟩

/-- Settles O17: each of the three kinds of cycle answers a next state. -/
theorem everyStepHasANextState : Obligations.EveryStepHasANextState := by
  intro s
  cases hf : s.fault with
  | some r => exact ⟨s, step_latched s r hf⟩
  | none =>
    cases hw : s.wait with
    | some r => rw [step_waiting s r hf hw]; exact waitingCycle_next r s
    | none => rw [step_executing s hf hw]; exact executingCycle_next s

/-! ## Precise faults -/

/-- All that an executing cycle can do to the latch: raise, with the fetched word, a fault whose cause holds, or keep
it. -/
theorem executingCycle_faults_or_keeps_latch (s t : State) (h : executingCycle s = .next t) :
    (∃ code, Causes s code ∧ s.advance.raise code s.fetchWord = .next t) ∨ t.fault = s.fault := by
  rcases executingCycle_cases s t h with ⟨i, hi, hexec⟩ | ⟨-, -, -, rfl⟩ | ⟨e, he, hstrict, hraise⟩
  · have hword : s.fetchWord = encode i := (encode_of_decode hi).symm
    rcases exec_faults_or_completes i s.advance t hexec with ⟨code, hraises, hraise⟩ | ⟨hfault, -⟩
    · exact .inl ⟨code, hraises.causes hword, hword ▸ hraise⟩
    · exact .inr hfault
  · exact .inr rfl
  · exact .inl ⟨.unknownOpcode, ⟨not_wordRecognized_of_decode he, hstrict⟩, hraise⟩

/-- Settles O18: only an executing cycle sets the latch, and raising a fault undoes the advance (R97). -/
theorem faultsArePrecise : Obligations.FaultsArePrecise := by
  intro s t r hf h hr
  have hset : t.fault ≠ s.fault := by rw [hf, hr]; exact Option.some_ne_none r
  rcases step_cases s t h with ⟨-, -, rfl⟩ | ⟨x, -, -, hwait⟩ | ⟨-, hw, hexec⟩
  · exact absurd rfl hset
  · exact absurd (waitingCycle_writes x s t hwait .fault (by decide)) hset
  · obtain ⟨code, -, hraise⟩ := (executingCycle_faults_or_keeps_latch s t hexec).resolve_right hset
    rw [raise_advance] at hraise
    cases hraise
    cases hr
    exact ⟨rfl, rfl, rfl, hw, rfl⟩

end Sys2Proof.Machine
end

