-- ==== Sys2Proof/Proofs/Flow.lean ====
section
/-! The obligations on control transfer (spec/41_flow.md): what RET, CALL, the jumps and the skips do, each said once by
an equation for each of its outcomes, and the frame of each outcome. -/

namespace Sys2Proof.Machine

/-! ## Taking a fault -/

/-- The law of `raise`: it goes on to a state that latches the fault (R97). -/
theorem State.raise_latches (s : State) (code : Fault) (op : Word) :
    ∃ t, s.raise code op = .next t ∧ Latches code op s t :=
  ⟨_, rfl, rfl, rfl, (s.writes_raise _ code op rfl).onlyChanges (by decide)⟩

/-! ## Subroutines -/

theorem exec_ret_of_stack_append {s : State} {rest : List Addr} {a : Addr} (h : s.stack = rest ++ [a]) :
    exec .ret s = .next (s.dropTop.jump a) := by
  have hlast : s.stack.getLast? = some a := by rw [h, List.getLast?_concat]
  simp only [exec, execRet, hlast]

theorem exec_ret_of_stack_nil {s : State} (h : s.stack = []) :
    exec .ret s = s.raise .stackUnderflow (encode .ret) := by
  simp only [exec, execRet, h, List.getLast?_nil]

theorem exec_call_of_room {s : State} (nnn : Addr) (h : s.params.stackDepth ≠ some s.stack.length) :
    exec (.call nnn) s = .next ((s.push s.pc).jump nnn) :=
  if_neg (mt s.stackFull_iff.mp h)

theorem exec_call_of_full {s : State} (nnn : Addr) (h : s.params.stackDepth = some s.stack.length) :
    exec (.call nnn) s = s.raise .stackOverflow (encode (.call nnn)) :=
  if_pos (s.stackFull_iff.mpr h)

/-- Popping undoes pushing (R112). -/
@[simp] theorem State.dropTop_push (s : State) (a : Addr) : (s.push a).dropTop = s := by
  simp only [State.dropTop, State.push, List.dropLast_concat]

theorem State.writes_dropTop_jump (s : State) (a : Addr) : Writes [.pc, .stack] s (s.dropTop.jump a) := by
  simp [writes_iff]

theorem State.writes_push_jump (s : State) (a target : Addr) :
    Writes [.pc, .stack] s ((s.push a).jump target) := by
  simp [writes_iff]

/-- Settles O26: the RET pops what the CALL pushed, and its own advance of pc is overwritten by the jump back. -/
theorem callThenRetReturns : Obligations.CallThenRetReturns := by
  intro s nnn hroom
  refine ⟨_, exec_call_of_room nnn hroom, ?_⟩
  calc exec .ret ((s.push s.pc).jump nnn).advance
      = .next (((s.push s.pc).jump nnn).advance.dropTop.jump s.pc) := exec_ret_of_stack_append (rest := s.stack) rfl
    _ = .next ((s.push s.pc).dropTop.jump s.pc) := rfl
    _ = .next (s.jump s.pc) := by rw [State.dropTop_push]
    _ = .next s := rfl

/-- Settles O23, by the last entry of the stack, or that it has none. -/
theorem retPopsOrUnderflows : Obligations.RetPopsOrUnderflows := by
  refine ⟨⟨by decide, decode_encode .ret⟩, fun s rest a h => ?_, fun s h => ?_⟩
  · have hstack : (s.dropTop.jump a).stack = rest := by
      rw [State.jump_stack, State.dropTop_stack, h, List.dropLast_concat]
    exact ⟨_, exec_ret_of_stack_append h, rfl, hstack, (s.writes_dropTop_jump a).onlyChanges (by decide)⟩
  · rw [exec_ret_of_stack_nil h]
    exact s.raise_latches .stackUnderflow (encode .ret)

/-- Settles O25, by the test of `STACK_DEPTH` against the length of the stack. -/
theorem callPushesOrOverflows : Obligations.CallPushesOrOverflows := by
  intro s nnn
  refine ⟨⟨Laws.EncodingRow.nnn_covers 0x2 nnn, decode_encode (.call nnn)⟩, fun hroom => ?_, fun hfull => ?_⟩
  · exact ⟨_, exec_call_of_room nnn hroom, rfl, rfl, (s.writes_push_jump s.pc nnn).onlyChanges (by decide)⟩
  · rw [exec_call_of_full nnn hfull]
    exact s.raise_latches .stackOverflow (encode (.call nnn))

/-! ## Jumps -/

theorem State.onlyChanges_jump (s : State) (a : Addr) : OnlyChanges [.pc] s (s.jump a) :=
  (s.writes_jump a).onlyChanges (by decide)

/-- A JP to its own address gives back the state before the cycle: the jump undoes the advance (R99). -/
theorem step_of_jp_self {s : State} (hf : s.fault = none) (hw : s.wait = none)
    (h : s.fetchWord = encode (.jp s.pc)) : step s = .next s := by
  have hdecode : decode s.fetchWord = .ok (.jp s.pc) := by rw [h, decode_encode]
  calc step s
      = exec (.jp s.pc) s.advance := stepRunsTheDecodedInstruction s _ hf hw hdecode
    _ = .next (s.advance.jump s.pc) := rfl
    _ = .next s := rfl

/-- Settles O24: `jump` sets pc and nothing else; the second part is `step_of_jp_self`. -/
theorem jpJumps : Obligations.JpJumps :=
  ⟨fun s nnn => ⟨⟨Laws.EncodingRow.nnn_covers 0x1 nnn, decode_encode (.jp nnn)⟩,
    s.jump nnn, rfl, rfl, s.onlyChanges_jump nnn⟩, fun _ => step_of_jp_self⟩

/-- The sum of R113 over the integers: V[0] is zero-extended, and the address wraps modulo 4096. -/
theorem State.toNat_offsetTarget (s : State) (nnn : Addr) :
    (s.offsetTarget nnn).toNat = (nnn.toNat + (s.readV 0).toNat) % 4096 := by
  have hzext : (zextAddr (s.readV 0)).toNat = (s.readV 0).toNat :=
    BitVec.toNat_setWidth_of_le (by decide)
  rw [State.offsetTarget, BitVec.toNat_add, hzext]

/-- Settles O27: a jump to the computed target. -/
theorem jpV0AddsV0 : Obligations.JpV0AddsV0 :=
  fun s nnn => ⟨⟨Laws.EncodingRow.nnn_covers 0xB nnn, decode_encode (.jpV0 nnn)⟩,
    s.jump (s.offsetTarget nnn), rfl, s.toNat_offsetTarget nnn, s.onlyChanges_jump _⟩

/-! ## Skips -/

theorem State.onlyChanges_skipIf (s : State) (c : Bool) : OnlyChanges [.pc] s (s.skipIf c) :=
  (s.writes_skipIf c).onlyChanges (by decide)

/-- All that an instruction that skips on `p` does, `q` being the opposite condition (R114 to R117). -/
theorem exec_skips {i : Instr} {s : State} {p q : Prop} [Decidable p]
    (h : exec i s = .next (s.skipIf (decide p))) (hq : q → ¬ p) :
    ∃ t, exec i s = .next t ∧ OnlyChanges [.pc] s t ∧ (p → t.pc = s.pc + 2) ∧ (q → t.pc = s.pc) := by
  refine ⟨_, h, s.onlyChanges_skipIf _, fun htaken => ?_, fun hnot => ?_⟩
  · rw [decide_eq_true htaken, State.skipIf_true, State.advance_pc]
  · rw [decide_eq_false (hq hnot), State.skipIf_false]

/-- Settles O28: SE_IMM skips on equality of V[x] and nn, SNE_IMM on its negation. -/
theorem immediateSkips : Obligations.ImmediateSkips :=
  fun _ x nn => ⟨⟨Laws.EncodingRow.nnn_covers 0x3 (x ++ nn), decode_encode (.seImm x nn)⟩,
    ⟨Laws.EncodingRow.nnn_covers 0x4 (x ++ nn), decode_encode (.sneImm x nn)⟩,
    exec_skips rfl id, exec_skips rfl not_not_intro⟩

/-- Settles O29: SE_REG skips on equality of V[x] and V[y], SNE_REG on its negation. -/
theorem registerSkips : Obligations.RegisterSkips :=
  fun _ x y => ⟨⟨Laws.EncodingRow.xyn_covers 0x5 x y 0x0, decode_encode (.seReg x y)⟩,
    ⟨Laws.EncodingRow.xyn_covers 0x9 x y 0x0, decode_encode (.sneReg x y)⟩,
    exec_skips rfl id, exec_skips rfl not_not_intro⟩

end Sys2Proof.Machine
end

