-- ==== Sys2Proof/Proofs/Alu.lean ====
section
/-! The obligations on the register loads and the ALU group (spec/42_alu.md): the frame of each of the two ways they
write their registers, the arithmetic of results and flags over the integers, and the instructions put together from
these. -/

namespace Sys2Proof.Machine

/-! ## One register written, or a result and then the flag -/

section
variable (s : State) (x : RegIdx) (b : Byte)

theorem State.readV_writeV_self : (s.writeV x b).readV x = b := by rw [State.readV_writeV, if_pos rfl]

theorem State.onlyChanges_writeV : OnlyChanges [.v] s (s.writeV x b) :=
  (s.writes_writeV x b).onlyChanges (by decide)

theorem State.onlyChanges_writeResultAndFlag (c : Bool) : OnlyChanges [.v] s (s.writeResultAndFlag x b c) :=
  (s.writes_writeResultAndFlag x b c).onlyChanges (by decide)

end

/-- All that an instruction with a result and a flag does: the result in V[x] unless that is VF, and the flag in VF,
which is written last and so holds whatever x is (R132). `P` and `Q` say what result and flag are. -/
theorem exec_resultAndFlag {i : Instr} {s : State} {x : RegIdx} {b : Byte} {c : Bool} {P Q : Byte → Prop}
    (h : exec i s = .next (s.writeResultAndFlag x b c)) (hP : P b) (hQ : Q (flagByte c)) :
    ∃ t, exec i s = .next t ∧ (x ≠ 15 → P (t.readV x)) ∧ Q (t.readV 15) ∧
      OnlyRegs [x, 15] s t ∧ OnlyChanges [.v] s t := by
  refine ⟨_, h, fun hx => ?_, ?_, s.onlyRegs_writeResultAndFlag x b c, s.onlyChanges_writeResultAndFlag x b c⟩
  · have hne : x ≠ regF := hx
    rwa [State.readV_writeResultAndFlag, if_neg hne, if_pos rfl]
  · have hF : (15 : RegIdx) = regF := rfl
    rwa [State.readV_writeResultAndFlag, if_pos hF]

/-! ## Results and flags over the integers -/

theorem flagByte_decide (p : Prop) [Decidable p] : flagByte (decide p) = if p then 1 else 0 := by
  simp only [flagByte_eq, decide_eq_true_eq]

theorem flagByte_carryFlag (a b : Byte) :
    flagByte (carryFlag a b) = if a.toNat + b.toNat > 255 then 1 else 0 := flagByte_decide _

theorem flagByte_noBorrowFlag (a b : Byte) :
    flagByte (noBorrowFlag a b) = if a.toNat ≥ b.toNat then 1 else 0 := flagByte_decide _

theorem toNat_flagByte_lowBitFlag (a : Byte) : (flagByte (lowBitFlag a)).toNat = a.toNat % 2 := by
  rw [toNat_flagByte, lowBitFlag_toNat]

theorem toNat_flagByte_highBitFlag (a : Byte) : (flagByte (highBitFlag a)).toNat = a.toNat / 128 := by
  rw [toNat_flagByte, highBitFlag_toNat]

/-- The difference of bytes is that of the integers modulo 256 (R10, R127). -/
theorem toNat_sub_eq_emod (a b : Byte) : ((a - b).toNat : Int) = ((a.toNat : Int) - b.toNat) % 256 := by
  have hb : b.toNat < 256 := b.isLt
  rw [BitVec.toNat_sub]
  omega

theorem toNat_ushiftRight_one (a : Byte) : (a >>> 1).toNat = a.toNat / 2 := by
  rw [BitVec.toNat_ushiftRight, Nat.shiftRight_one]

theorem toNat_shiftLeft_one (a : Byte) : (a <<< 1).toNat = a.toNat * 2 % 256 := by
  rw [BitVec.toNat_shiftLeft, Nat.shiftLeft_eq, pow_one]

/-! ## Arithmetic and shifts -/

/-- Settles O33: the sum and its carry, both of the registers before any write. -/
theorem addRegSetsCarry : Obligations.AddRegSetsCarry :=
  fun _ x y => ⟨⟨Laws.EncodingRow.xyn_covers 0x8 x y 0x4, decode_encode (.addReg x y)⟩,
    exec_resultAndFlag (P := fun r => r.toNat = _) (Q := fun f => f = _) rfl
      (BitVec.toNat_add _ _) (flagByte_carryFlag _ _)⟩

/-- Settles O34: the difference V[x] - V[y], and no borrow in it. -/
theorem subSetsNoBorrow : Obligations.SubSetsNoBorrow :=
  fun _ x y => ⟨⟨Laws.EncodingRow.xyn_covers 0x8 x y 0x5, decode_encode (.sub x y)⟩,
    exec_resultAndFlag (P := fun r => (r.toNat : Int) = _) (Q := fun f => f = _) rfl
      (toNat_sub_eq_emod _ _) (flagByte_noBorrowFlag _ _)⟩

/-- Settles O35: the difference V[y] - V[x], and no borrow in it. -/
theorem subnSetsNoBorrow : Obligations.SubnSetsNoBorrow :=
  fun _ x y => ⟨⟨Laws.EncodingRow.xyn_covers 0x8 x y 0x7, decode_encode (.subn x y)⟩,
    exec_resultAndFlag (P := fun r => (r.toNat : Int) = _) (Q := fun f => f = _) rfl
      (toNat_sub_eq_emod _ _) (flagByte_noBorrowFlag _ _)⟩

/-- Settles O36: the quotient and the remainder of V[x] by 2. -/
theorem shrTakesTheLowBit : Obligations.ShrTakesTheLowBit :=
  fun _ x y => ⟨⟨Laws.EncodingRow.xyn_covers 0x8 x y 0x6, decode_encode (.shr x y)⟩,
    exec_resultAndFlag (P := fun r => r.toNat = _) (Q := fun f => f.toNat = _) rfl
      (toNat_ushiftRight_one _) (toNat_flagByte_lowBitFlag _)⟩

/-- Settles O37: twice V[x] modulo 256, and the bit that the reduction drops. -/
theorem shlTakesTheHighBit : Obligations.ShlTakesTheHighBit :=
  fun _ x y => ⟨⟨Laws.EncodingRow.xyn_covers 0x8 x y 0xE, decode_encode (.shl x y)⟩,
    exec_resultAndFlag (P := fun r => r.toNat = _) (Q := fun f => f.toNat = _) rfl
      (toNat_shiftLeft_one _) (toNat_flagByte_highBitFlag _)⟩

/-! ## The writers of V[x] alone -/

/-- Settles O30: one register write each. -/
theorem registerLoads : Obligations.RegisterLoads :=
  fun s x y nn => ⟨⟨Laws.EncodingRow.nnn_covers 0x6 (x ++ nn), decode_encode (.ldImm x nn)⟩,
    ⟨Laws.EncodingRow.xyn_covers 0x8 x y 0x0, decode_encode (.ldReg x y)⟩,
    ⟨_, rfl, s.readV_writeV_self x nn, s.onlyRegs_writeV x nn, s.onlyChanges_writeV x nn⟩,
    ⟨_, rfl, s.readV_writeV_self x _, s.onlyRegs_writeV x _, s.onlyChanges_writeV x _⟩⟩

/-- Settles O31: the sum wraps in the byte, and V[x] alone is written. -/
theorem addImmWraps : Obligations.AddImmWraps := by
  intro s x nn
  refine ⟨⟨Laws.EncodingRow.nnn_covers 0x7 (x ++ nn), decode_encode (.addImm x nn)⟩, _, rfl, ?_,
    s.onlyRegs_writeV x _, s.onlyChanges_writeV x _⟩
  rw [State.readV_writeV_self, BitVec.toNat_add]

/-- Settles O32: the library's reading of each operation at one bit. -/
theorem bitwiseOperations : Obligations.BitwiseOperations := by
  intro s x y
  refine ⟨⟨Laws.EncodingRow.xyn_covers 0x8 x y 0x1, decode_encode (.or x y)⟩,
    ⟨Laws.EncodingRow.xyn_covers 0x8 x y 0x2, decode_encode (.and x y)⟩,
    ⟨Laws.EncodingRow.xyn_covers 0x8 x y 0x3, decode_encode (.xor x y)⟩,
    ⟨_, rfl, s.onlyRegs_writeV x _, s.onlyChanges_writeV x _, fun k => ?_⟩,
    ⟨_, rfl, s.onlyRegs_writeV x _, s.onlyChanges_writeV x _, fun k => ?_⟩,
    ⟨_, rfl, s.onlyRegs_writeV x _, s.onlyChanges_writeV x _, fun k => ?_⟩⟩
  · rw [State.readV_writeV_self, BitVec.getLsbD_or]
  · rw [State.readV_writeV_self, BitVec.getLsbD_and]
  · rw [State.readV_writeV_self, BitVec.getLsbD_xor]

/-- Settles O38: `drawn` counts the draw and leaves the registers; the write to V[x] then masks whatever byte came. -/
theorem rndMasksARandomByte : Obligations.RndMasksARandomByte :=
  fun s x nn => ⟨⟨Laws.EncodingRow.nnn_covers 0xC (x ++ nn), decode_encode (.rnd x nn)⟩, ⟨_, rfl, rfl⟩,
    fun r => ⟨s.drawn.readV_writeV_self x (r &&& nn), rfl, s.drawn.onlyRegs_writeV x (r &&& nn),
      (s.writes_randomInto x nn r).onlyChanges (by decide)⟩⟩

end Sys2Proof.Machine
end

