-- ==== Sys2Proof/Proofs/IndexMemory.lean ====
section
/-! The obligations on the index register and on the stores and loads at it (spec/43_index_memory.md): the addresses
and digits as numbers, and each instruction from the law of the operation it calls and its frame. -/

namespace Sys2Proof.Machine

/-! ## Bytes and addresses as numbers -/

theorem toNat_zextAddr (b : Byte) : (zextAddr b).toNat = b.toNat := BitVec.toNat_setWidth_of_le (by decide)

/-- Five times a byte is at most 1275, so that Fx29 reduces nothing (R142). -/
theorem toNat_glyphAddr (b : Byte) : (glyphAddr b).toNat = b.toNat * 5 := by
  have hb : b.toNat < 256 := b.isLt
  rw [glyphAddr, BitVec.toNat_ofNat, Nat.mod_eq_of_lt (by omega)]

/-- A decimal digit fits in its byte (R143). -/
theorem map_toNat_decimalDigits (b : Byte) :
    (decimalDigits b).map BitVec.toNat = [b.toNat / 100, b.toNat / 10 % 10, b.toNat % 10] := by
  have hb : b.toNat < 256 := b.isLt
  have fits {d : Nat} (hd : d < 10) : (BitVec.ofNat 8 d).toNat = d := by
    rw [BitVec.toNat_ofNat, Nat.mod_eq_of_lt (by omega)]
  simp only [decimalDigits, List.map_cons, List.map_nil]
  rw [fits (by omega), fits (by omega), fits (by omega)]

theorem State.indexAddr_zero (s : State) : s.indexAddr 0 = s.I := BitVec.add_zero s.I

/-! ## The index register -/

/-- Settles O39: `setI` puts the operand in I as it is. -/
theorem ldISetsTheIndex : Obligations.LdISetsTheIndex :=
  fun s nnn => ⟨⟨Laws.EncodingRow.nnn_covers 0xA nnn, decode_encode (.ldI nnn)⟩,
    s.setI nnn, rfl, rfl, exec_onlyChanges (.ldI nnn) s _ rfl⟩

/-- Settles O40: V[x] is zero-extended, and the sum of addresses is the one modulo 4096. -/
theorem addIVxWraps : Obligations.AddIVxWraps := by
  intro s x
  refine ⟨⟨Laws.EncodingRow.xfn_covers 0xF x 0x1E, decode_encode (.addIVx x)⟩,
    s.setI (s.I + zextAddr (s.readV x)), rfl, ?_, exec_onlyChanges (.addIVx x) s _ rfl⟩
  rw [State.setI_I, BitVec.toNat_add, toNat_zextAddr]

/-- Settles O41: the glyph address of the whole byte, which needs no reduction. -/
theorem ldFVxPointsAtTheGlyph : Obligations.LdFVxPointsAtTheGlyph :=
  fun s x => ⟨⟨Laws.EncodingRow.xfn_covers 0xF x 0x29, decode_encode (.ldFVx x)⟩,
    s.setI (glyphAddr (s.readV x)), rfl, toNat_glyphAddr (s.readV x), exec_onlyChanges (.ldFVx x) s _ rfl⟩

/-! ## Stores -/

/-- Fx33 leaves the k-th digit of V[x] at `I + k` modulo 4096 (R143, R146). -/
theorem execLdBVx_memRead (x : RegIdx) (s t : State) (h : exec (.ldBVx x) s = .next t) (k : Nat) (hk : k < 3) :
    (t.memRead (s.indexAddr k)).toNat =
      [(s.readV x).toNat / 100, (s.readV x).toNat / 10 % 10, (s.readV x).toNat % 10][k] := by
  cases h
  have hlen : (decimalDigits (s.readV x)).length = 3 := rfl
  rw [s.memRead_storeBytes_indexAddr _ (by omega) k (by omega)]
  simp only [← map_toNat_decimalDigits, List.getElem_map]

/-- Settles O42: the digits by index, and the bytes the instruction writes. -/
theorem ldBVxStoresDecimalDigits : Obligations.LdBVxStoresDecimalDigits := by
  intro s x
  have digit := execLdBVx_memRead x s _ rfl
  have hbytes := exec_onlyBytes (.ldBVx x) s _ rfl
  have hundreds := digit 0 (by decide)
  rw [bytesWritten, State.indexAddr_zero] at hbytes
  rw [State.indexAddr_zero] at hundreds
  exact ⟨⟨Laws.EncodingRow.xfn_covers 0xF x 0x33, decode_encode (.ldBVx x)⟩, _, rfl, hundreds,
    digit 1 (by decide), digit 2 (by decide), hbytes, exec_onlyChanges (.ldBVx x) s _ rfl⟩

/-- Settles O43: an address that is no `I + k` is not among the bytes the instruction writes. -/
theorem ldMemVxStoresRegisters : Obligations.LdMemVxStoresRegisters := by
  intro s x
  refine ⟨⟨Laws.EncodingRow.xfn_covers 0xF x 0x55, decode_encode (.ldMemVx x)⟩, _, rfl,
    execLdMemVx_memRead x s _ rfl, fun a ha => ?_, exec_onlyChanges (.ldMemVx x) s _ rfl⟩
  have hnotWritten : a ∉ bytesWritten s (.ldMemVx x) := by
    intro hmem
    obtain ⟨k, hk, haddr⟩ := List.mem_map.mp hmem
    exact ha k (Nat.le_of_lt_succ (List.mem_range.mp hk)) haddr.symm
  exact exec_onlyBytes (.ldMemVx x) s _ rfl a hnotWritten

/-! ## Loads -/

/-- Settles O44: the law of `loadRegs` for the registers from V0 through V[x]. -/
theorem ldVxMemLoadsRegisters : Obligations.LdVxMemLoadsRegisters := by
  intro s x
  have hread := s.readV_loadRegs (x.toNat + 1) x.isLt
  refine ⟨⟨Laws.EncodingRow.xfn_covers 0xF x 0x65, decode_encode (.ldVxMem x)⟩, _, rfl,
    fun r hr => ?_, fun r hr => ?_, exec_onlyChanges (.ldVxMem x) s _ rfl⟩
  · rw [hread, if_pos (Nat.lt_succ_of_le hr)]
  · rw [hread, if_neg (by omega)]

end Sys2Proof.Machine
end

