-- ==== Sys2Proof/Proofs/Display.lean ====
section
/-! The obligations on the framebuffer (spec/44_display.md): what CLS and DRW do to the pixels, that nothing else writes
them, and that only DRW's flag depends on them. -/

namespace Sys2Proof.Machine

/-! ## The clear -/

/-- Settles O45: every pixel of the framebuffer that CLS puts in place is 0. -/
theorem clsClearsEveryPixel : Obligations.ClsClearsEveryPixel :=
  ⟨⟨by decide, decode_encode .cls⟩, fun s =>
    ⟨s.setFb clearFramebuffer, rfl, pixel_clearFramebuffer, exec_onlyChanges .cls s _ rfl⟩⟩

/-! ## The sprite draw -/

section
variable {s : State} {x y : RegIdx} {n : BitVec 4} {px py : Nat}

/-- A sprite covers pixels of the grid only. -/
theorem SpriteCovers.in_grid (h : SpriteCovers s x y n px py) : px < 64 ∧ py < 32 := by
  obtain ⟨row, col, -, -, -, rfl, rfl⟩ := h
  exact ⟨Nat.mod_lt _ (by decide), Nat.mod_lt _ (by decide)⟩

/-- On the grid, `SpriteCovers` does not see the reduction of the coordinates. -/
theorem spriteCovers_mod_iff (hx : px < 64) (hy : py < 32) :
    SpriteCovers s x y n (px % 64) (py % 32) ↔ SpriteCovers s x y n px py := by
  rw [Nat.mod_eq_of_lt hx, Nat.mod_eq_of_lt hy]

end

section
variable (s : State) (x y : RegIdx) (n : BitVec 4)

/-- The law of `spriteDraw`: the pixels drawn are the covered ones, the coordinates read modulo the grid. A draw has
fewer than 16 rows, so no two of them meet on the 32 rows of the grid (R151, R152). -/
theorem State.spriteDraw_draws :
    Draws (fun px py => SpriteCovers s x y n (px % 64) (py % 32)) ⟨s.fb, false⟩ (s.spriteDraw x y n) := by
  have hrows : n.toNat ≤ 32 := by have := n.isLt; omega
  refine Draws.congr _ _ _ _ (fun px py => ?_) (blitRows_draws s (s.readV x).toNat (s.readV y).toNat n.toNat hrows)
  constructor
  · rintro ⟨row, hrow, col, hcol, hbit, hpx, hpy⟩
    exact ⟨row, col, hrow, hcol, hbit, hpx, hpy⟩
  · rintro ⟨row, col, hrow, hcol, hbit, hpx, hpy⟩
    exact ⟨row, hrow, col, hcol, hbit, hpx, hpy⟩

/-- The collision flag of a draw: a covered pixel was 1 before it (R151). -/
theorem State.spriteDraw_collision :
    (s.spriteDraw x y n).collision = true ↔ ∃ px py, SpriteCovers s x y n px py ∧ getPixel px py s = true := by
  rw [(s.spriteDraw_draws x y n).collides]
  constructor
  · rintro (h | ⟨px, py, hcovers, hset⟩)
    · exact absurd h Bool.false_ne_true
    · have hmod : pixel s.fb (px % 64) (py % 32) = pixel s.fb px py :=
        pixel_congr s.fb _ _ px py (Nat.mod_mod px 64) (Nat.mod_mod py 32)
      exact ⟨px % 64, py % 32, hcovers, hmod.trans hset⟩
  · rintro ⟨px, py, hcovers, hset⟩
    obtain ⟨hx, hy⟩ := hcovers.in_grid
    exact .inr ⟨px, py, (spriteCovers_mod_iff hx hy).mpr hcovers, hset⟩

end

/-- Settles O46: the law of `spriteDraw` for the pixels, its collision flag for VF, and the frame of DRW. -/
theorem drwFlipsTheSpriteAndReportsCollision : Obligations.DrwFlipsTheSpriteAndReportsCollision := by
  intro s x y n
  have hdraw := s.spriteDraw_draws x y n
  have hflag : ((s.setFb (s.spriteDraw x y n).fb).writeV regF (flagByte (s.spriteDraw x y n).collision)).readV 15 =
      flagByte (s.spriteDraw x y n).collision := State.readV_writeV_self _ regF _
  refine ⟨⟨Laws.EncodingRow.nnn_covers 0xD (x ++ (y ++ n : BitVec 8)), decode_encode (.drw x y n)⟩, _, rfl,
    fun px py hx hy => ⟨fun hcovers => ?_, fun hnot => ?_⟩, fun hhit => ?_, fun hmiss => ?_,
    exec_onlyRegs (.drw x y n) s _ rfl, exec_onlyChanges (.drw x y n) s _ rfl⟩
  · exact hdraw.flips px py ((spriteCovers_mod_iff hx hy).mpr hcovers)
  · exact hdraw.keeps px py (mt (spriteCovers_mod_iff hx hy).mp hnot)
  · rw [hflag, (s.spriteDraw_collision x y n).mpr hhit]; rfl
  · have hnone : (s.spriteDraw x y n).collision ≠ true := by
      rw [Ne, s.spriteDraw_collision x y n]
      rintro ⟨px, py, hcovers, hset⟩
      exact Bool.false_ne_true ((hmiss px py hcovers).symm.trans hset)
    rw [hflag, Bool.eq_false_iff.mpr hnone]; rfl

/-! ## The writers of the framebuffer -/

/-- Only CLS and DRW have the framebuffer in their footprint (R30, R153). -/
theorem cls_or_drw_of_fb_mem_footprint (i : Instr) (h : .fb ∈ footprint i) :
    i = .cls ∨ ∃ x y n, i = .drw x y n := by
  cases i with
  | cls => exact .inl rfl
  | drw x y n => exact .inr ⟨x, y, n, rfl⟩
  | _ => simp [footprint] at h

theorem cls_or_drw_of_exec_fb_ne {i : Instr} {s t : State} (h : exec i s = .next t) (hfb : t.fb ≠ s.fb) :
    i = .cls ∨ ∃ x y n, i = .drw x y n :=
  cls_or_drw_of_fb_mem_footprint i (by_contra fun hnot => hfb (exec_writes i s t h .fb hnot))

/-- A cycle that changes the framebuffer executes one of the two (R153). -/
theorem step_fb_ne {s t : State} (h : step s = .next t) (hfb : t.fb ≠ s.fb) :
    s.fault = none ∧ s.wait = none ∧
      (decode s.fetchWord = .ok .cls ∨ ∃ x y n, decode s.fetchWord = .ok (.drw x y n)) := by
  rcases step_cases s t h with ⟨-, -, rfl⟩ | ⟨r, -, -, hwait⟩ | ⟨hf, hw, hcycle⟩
  · exact absurd rfl hfb
  · exact absurd (waitingCycle_writes r s t hwait .fb (by decide)) hfb
  · refine ⟨hf, hw, ?_⟩
    rcases executingCycle_cases s t hcycle with ⟨i, hi, hexec⟩ | ⟨-, -, -, rfl⟩ | ⟨-, -, -, hraise⟩
    · rcases cls_or_drw_of_exec_fb_ne hexec hfb with rfl | ⟨x, y, n, rfl⟩
      · exact .inl hi
      · exact .inr ⟨x, y, n, hi⟩
    · exact absurd rfl hfb
    · exact absurd (s.advance.writes_raise t _ _ hraise .fb (by decide)) hfb

/-- A host operation other than `cycle()` leaves the framebuffer (R153, R219). -/
theorem HostOp.apply_fb {op : HostOp} {s t : State} {r : HostResult} (hop : op ≠ .cycle)
    (h : op.apply s = .next (t, r)) : t.fb = s.fb := by
  rcases HostOp.apply_cases op s t r h with ⟨bytes, -, -, rfl, -⟩ | ⟨-, -, -, rfl, -⟩ | ⟨hcycle, -⟩ | ⟨-, rfl, -⟩ |
    ⟨k, -, rfl, -⟩ | ⟨k, -, rfl, -⟩ | ⟨-, -, -, rfl, -⟩
  · exact s.writes_storeBytes Config.romBase bytes .fb (by decide)
  · rfl
  · exact absurd hcycle hop
  · exact tickTimers_fb s
  · exact setPressed_fb s k
  · exact setReleased_fb s k
  · rfl

/-! ## The framebuffer is read by DRW alone -/

section
variable (s : State) (fb : Framebuffer)

theorem State.storeBytes_setFb (a : Addr) (bs : List Byte) :
    (s.setFb fb).storeBytes a bs = (s.storeBytes a bs).setFb fb := by
  induction bs generalizing s a with
  | nil => rfl
  | cons b bs ih => exact ih (s.memWrite a b) (a + 1)

theorem State.loadRegs_setFb (n : Nat) : (s.setFb fb).loadRegs n = (s.loadRegs n).setFb fb := by
  induction n with
  | zero => rfl
  | succ k ih => rw [State.loadRegs, State.loadRegs, ih]; rfl

theorem State.skipIf_setFb (c : Bool) : (s.setFb fb).skipIf c = (s.skipIf c).setFb fb := by
  cases c <;> rfl

end

section
variable {s : State} {x : RegIdx}

theorem exec_skp_of_state {pressed : Bool}
    (h : keyTest s.params.keyIndexPolicy s.keys (s.readV x) = .state pressed) :
    exec (.skp x) s = .next (s.skipIf pressed) := by
  simp only [exec, execSkp, h]

theorem exec_skp_of_outOfRange (h : keyTest s.params.keyIndexPolicy s.keys (s.readV x) = .outOfRange) :
    exec (.skp x) s = s.raise .keyIndexOutOfRange (encode (.skp x)) := by
  simp only [exec, execSkp, h]

theorem exec_sknp_of_state {pressed : Bool}
    (h : keyTest s.params.keyIndexPolicy s.keys (s.readV x) = .state pressed) :
    exec (.sknp x) s = .next (s.skipIf !pressed) := by
  simp only [exec, execSknp, h]

theorem exec_sknp_of_outOfRange (h : keyTest s.params.keyIndexPolicy s.keys (s.readV x) = .outOfRange) :
    exec (.sknp x) s = s.raise .keyIndexOutOfRange (encode (.sknp x)) := by
  simp only [exec, execSknp, h]

end

/-- An instruction that does not write the framebuffer does the same from every framebuffer, and leaves it as it is. -/
theorem exec_setFb (i : Instr) (s : State) (fb : Framebuffer) (hfoot : .fb ∉ footprint i) :
    ∃ t, exec i s = .next t ∧ exec i (s.setFb fb) = .next (t.setFb fb) := by
  cases i with
  | cls | drw => simp [footprint] at hfoot
  | ret =>
    rcases s.stack.eq_nil_or_concat' with hs | ⟨rest, a, hs⟩
    · exact ⟨_, exec_ret_of_stack_nil hs, exec_ret_of_stack_nil (s := s.setFb fb) hs⟩
    · exact ⟨_, exec_ret_of_stack_append hs, exec_ret_of_stack_append (s := s.setFb fb) hs⟩
  | call nnn =>
    by_cases hfull : s.params.stackDepth = some s.stack.length
    · exact ⟨_, exec_call_of_full nnn hfull, exec_call_of_full (s := s.setFb fb) nnn hfull⟩
    · exact ⟨_, exec_call_of_room nnn hfull, exec_call_of_room (s := s.setFb fb) nnn hfull⟩
  | skp x =>
    cases hk : keyTest s.params.keyIndexPolicy s.keys (s.readV x) with
    | state pressed =>
      exact ⟨_, exec_skp_of_state hk, s.skipIf_setFb fb _ ▸ exec_skp_of_state (s := s.setFb fb) hk⟩
    | outOfRange => exact ⟨_, exec_skp_of_outOfRange hk, exec_skp_of_outOfRange (s := s.setFb fb) hk⟩
  | sknp x =>
    cases hk : keyTest s.params.keyIndexPolicy s.keys (s.readV x) with
    | state pressed =>
      exact ⟨_, exec_sknp_of_state hk, s.skipIf_setFb fb _ ▸ exec_sknp_of_state (s := s.setFb fb) hk⟩
    | outOfRange => exact ⟨_, exec_sknp_of_outOfRange hk, exec_sknp_of_outOfRange (s := s.setFb fb) hk⟩
  | seImm | sneImm | seReg | sneReg => exact ⟨_, rfl, congrArg _ (s.skipIf_setFb fb _)⟩
  | ldBVx | ldMemVx => exact ⟨_, rfl, congrArg _ (s.storeBytes_setFb fb _ _)⟩
  | ldVxMem => exact ⟨_, rfl, congrArg _ (s.loadRegs_setFb fb _)⟩
  | _ => exact ⟨_, rfl, rfl⟩

/-- Two runs of one instruction from states that differ only in the framebuffer differ in nothing but the framebuffer
and VF, and in VF only after a DRW, whose collision flag is the one read of the framebuffer (R153). -/
theorem exec_setFb_agrees (i : Instr) (s t : State) (h : exec i s = .next t) (fb : Framebuffer) :
    ∃ u, exec i (s.setFb fb) = .next u ∧ OnlyChanges [.v, .fb] t u ∧ OnlyRegs [regF] t u ∧
      ((∀ x y n, i ≠ .drw x y n) → u.readV regF = t.readV regF) := by
  by_cases hfoot : .fb ∈ footprint i
  · rcases cls_or_drw_of_fb_mem_footprint i hfoot with rfl | ⟨x, y, n, rfl⟩
    · cases h
      exact ⟨_, rfl, (Writes.refl _ _).onlyChanges (by decide), fun _ _ => rfl, fun _ => rfl⟩
    · cases h
      refine ⟨_, rfl, Writes.onlyChanges (by simp [writes_iff]) (by decide), fun r hr => ?_,
        fun hnot => absurd rfl (hnot x y n)⟩
      have hne : r ≠ regF := List.ne_of_not_mem_cons hr
      simp [hne]
  · obtain ⟨t', ht, hu⟩ := exec_setFb i s fb hfoot
    cases h.symm.trans ht
    exact ⟨_, hu, ((t.writes_setFb fb).mono (by simp)).onlyChanges (by decide), fun _ _ => rfl, fun _ => rfl⟩

/-- Settles O22: the footprints for the writers, two runs of each instruction for the readers. -/
theorem framebufferIsWrittenByClsAndDrwAndReadByTheFlagAlone :
    Obligations.FramebufferIsWrittenByClsAndDrwAndReadByTheFlagAlone := by
  refine ⟨fun i s t h => ⟨fun hcls hdrw => ?_, exec_setFb_agrees i s t h⟩, fun _ _ => step_fb_ne,
    fun _ _ _ _ => HostOp.apply_fb, fun _ _ _ => rfl⟩
  by_contra hfb
  rcases cls_or_drw_of_exec_fb_ne h hfb with rfl | ⟨x, y, n, rfl⟩
  · exact hcls rfl
  · exact hdrw x y n rfl

end Sys2Proof.Machine
end

