-- ==== Sys2Proof/Proofs/KeypadTimer.lean ====
section
/-! The obligations on the keypad and the timers (spec/45_keypad_timer.md): the two outcomes of a key skip, the timer
transfers, the wait, and that no instruction reads ST. -/

namespace Sys2Proof.Machine

/-! ## Key skips -/

section
variable {s : State} {x : RegIdx}

/-- When the key test gives a state, SKP skips on it and SKNP on its opposite (R160, R161). -/
theorem exec_keySkips_of_state {pressed : Bool}
    (h : keyTest s.params.keyIndexPolicy s.keys (s.readV x) = .state pressed) :
    (∃ t, exec (.skp x) s = .next t ∧ OnlyChanges [.pc] s t ∧ t.pc = if pressed then s.pc + 2 else s.pc) ∧
    (∃ t, exec (.sknp x) s = .next t ∧ OnlyChanges [.pc] s t ∧ t.pc = if pressed then s.pc else s.pc + 2) := by
  refine ⟨⟨_, exec_skp_of_state h, s.onlyChanges_skipIf _, ?_⟩,
    ⟨_, exec_sknp_of_state h, s.onlyChanges_skipIf _, ?_⟩⟩
  · rw [State.skipIf_eq]
  · cases pressed <;> rfl

/-- When the key test is out of range, both latch the fault with their own word (R204). -/
theorem exec_keySkips_of_outOfRange
    (h : keyTest s.params.keyIndexPolicy s.keys (s.readV x) = .outOfRange) :
    (∃ t, exec (.skp x) s = .next t ∧ Latches .keyIndexOutOfRange (encode (.skp x)) s t) ∧
    (∃ t, exec (.sknp x) s = .next t ∧ Latches .keyIndexOutOfRange (encode (.sknp x)) s t) := by
  rw [exec_skp_of_outOfRange h, exec_sknp_of_outOfRange h]
  exact ⟨s.raise_latches _ _, s.raise_latches _ _⟩

end

/-- Settles O47: an index below 16 is tested as it is, whatever the policy. -/
theorem keySkipsTestTheirKey : Obligations.KeySkipsTestTheirKey :=
  fun _ x hindex => ⟨⟨Laws.EncodingRow.xfn_covers 0xE x 0x9E, decode_encode (.skp x)⟩,
    ⟨Laws.EncodingRow.xfn_covers 0xE x 0xA1, decode_encode (.sknp x)⟩,
    exec_keySkips_of_state (keyTest_inRange _ _ _ hindex)⟩

/-- Settles O48, by the key test of an index of 16 or more under each policy; under the last it is that of a released
key. -/
theorem keyIndexOutOfRangeGoesByPolicy : Obligations.KeyIndexOutOfRangeGoesByPolicy := by
  intro s x hindex
  refine ⟨fun hfault => ?_, fun hmask => ?_, fun hnotPressed => ?_⟩
  · exact exec_keySkips_of_outOfRange (hfault ▸ keyTest_fault s.keys _ hindex)
  · exact exec_keySkips_of_state (hmask ▸ keyTest_mask s.keys _ hindex)
  · exact exec_keySkips_of_state (hnotPressed ▸ keyTest_notPressed s.keys _ hindex)

/-! ## The delay timer and the wait -/

/-- The law of `tick` over the integers: the subtraction floors at zero (R211). -/
theorem toNat_tick (b : Byte) : (tick b).toNat = b.toNat - 1 := by
  unfold tick
  split
  · next hpos => exact BitVec.toNat_sub_of_le (y := 1) hpos
  · omega

/-- Settles O49: one register write, one timer write, and the tick of the value written. -/
theorem delayTimerTransfers : Obligations.DelayTimerTransfers :=
  fun s x => ⟨⟨Laws.EncodingRow.xfn_covers 0xF x 0x07, decode_encode (.ldVxDt x)⟩,
    ⟨Laws.EncodingRow.xfn_covers 0xF x 0x15, decode_encode (.ldDtVx x)⟩,
    ⟨_, rfl, s.readV_writeV_self x s.dt, s.onlyRegs_writeV x s.dt, s.onlyChanges_writeV x s.dt⟩,
    ⟨_, rfl, rfl, exec_onlyChanges (.ldDtVx x) s _ rfl, toNat_tick (s.readV x)⟩⟩

/-- Settles O51: `setWait` enters the wait, and the keys play no part in it. -/
theorem ldVxKEntersTheWait : Obligations.LdVxKEntersTheWait :=
  fun s x => ⟨⟨Laws.EncodingRow.xfn_covers 0xF x 0x0A, decode_encode (.ldVxK x)⟩,
    s.setWait (some x), rfl, rfl, exec_onlyChanges (.ldVxK x) s _ rfl⟩

/-! ## The sound timer is read by no instruction -/

section
variable (s : State) (b : Byte)

theorem State.skipIf_setSt (c : Bool) : (s.setSt b).skipIf c = (s.skipIf c).setSt b := by
  cases c <;> rfl

theorem State.storeBytes_setSt (a : Addr) (bs : List Byte) :
    (s.setSt b).storeBytes a bs = (s.storeBytes a bs).setSt b := by
  induction bs generalizing s a with
  | nil => rfl
  | cons c bs ih => exact ih (s.memWrite a c) (a + 1)

theorem State.loadRegs_setSt (n : Nat) : (s.setSt b).loadRegs n = (s.loadRegs n).setSt b := by
  induction n with
  | zero => rfl
  | succ k ih => rw [State.loadRegs, State.loadRegs, ih]; rfl

theorem blitRows_setSt (cx cy n : Nat) : blitRows (s.setSt b) cx cy n = blitRows s cx cy n := by
  induction n with
  | zero => rfl
  | succ k ih => rw [blitRows, blitRows, ih]; rfl

theorem State.spriteDraw_setSt (x y : RegIdx) (n : BitVec 4) :
    (s.setSt b).spriteDraw x y n = s.spriteDraw x y n :=
  blitRows_setSt s b _ _ _

end

/-- Only LD_ST_VX has ST in its footprint (R28, R165). -/
theorem ldStVx_of_st_mem_footprint (i : Instr) (h : .st ∈ footprint i) : ∃ x, i = .ldStVx x := by
  cases i with
  | ldStVx x => exact ⟨x, rfl⟩
  | _ => simp [footprint] at h

/-- An instruction that does not write ST does the same from every ST, and leaves it as it is (R213). -/
theorem exec_setSt (i : Instr) (s t : State) (b : Byte) (hfoot : .st ∉ footprint i) :
    exec i s = .next t → exec i (s.setSt b) = .next (t.setSt b) := by
  cases i with
  | ldStVx => simp [footprint] at hfoot
  | ret =>
    rcases s.stack.eq_nil_or_concat' with hs | ⟨rest, a, hs⟩
    · rw [exec_ret_of_stack_nil hs, exec_ret_of_stack_nil (s := s.setSt b) hs]; rintro ⟨⟩; rfl
    · rw [exec_ret_of_stack_append hs, exec_ret_of_stack_append (s := s.setSt b) hs]; rintro ⟨⟩; rfl
  | call nnn =>
    by_cases hfull : s.params.stackDepth = some s.stack.length
    · rw [exec_call_of_full nnn hfull, exec_call_of_full (s := s.setSt b) nnn hfull]; rintro ⟨⟩; rfl
    · rw [exec_call_of_room nnn hfull, exec_call_of_room (s := s.setSt b) nnn hfull]; rintro ⟨⟩; rfl
  | skp x =>
    cases hk : keyTest s.params.keyIndexPolicy s.keys (s.readV x) with
    | state pressed =>
      rw [exec_skp_of_state hk, exec_skp_of_state (s := s.setSt b) hk, State.skipIf_setSt]; rintro ⟨⟩; rfl
    | outOfRange =>
      rw [exec_skp_of_outOfRange hk, exec_skp_of_outOfRange (s := s.setSt b) hk]; rintro ⟨⟩; rfl
  | sknp x =>
    cases hk : keyTest s.params.keyIndexPolicy s.keys (s.readV x) with
    | state pressed =>
      rw [exec_sknp_of_state hk, exec_sknp_of_state (s := s.setSt b) hk, State.skipIf_setSt]; rintro ⟨⟩; rfl
    | outOfRange =>
      rw [exec_sknp_of_outOfRange hk, exec_sknp_of_outOfRange (s := s.setSt b) hk]; rintro ⟨⟩; rfl
  | seImm | sneImm | seReg | sneReg => rintro ⟨⟩; exact congrArg _ (s.skipIf_setSt b _)
  | drw x y n => simp only [exec, execDrw, State.spriteDraw_setSt]; rintro ⟨⟩; rfl
  | ldBVx | ldMemVx => rintro ⟨⟩; exact congrArg _ (s.storeBytes_setSt b _ _)
  | ldVxMem => rintro ⟨⟩; exact congrArg _ (s.loadRegs_setSt b _)
  | _ => rintro ⟨⟩; rfl

/-- Settles O50: the two runs of LD_ST_VX write the same byte to ST, the two runs of any other instruction keep the ST
each began with. -/
theorem soundTimerIsWrittenAndNeverRead : Obligations.SoundTimerIsWrittenAndNeverRead := by
  refine ⟨fun s x => ⟨⟨Laws.EncodingRow.xfn_covers 0xF x 0x18, decode_encode (.ldStVx x)⟩,
    s.setSt (s.readV x), rfl, rfl, exec_onlyChanges (.ldStVx x) s _ rfl⟩, fun i s t b h => ?_⟩
  by_cases hfoot : .st ∈ footprint i
  · obtain ⟨x, rfl⟩ := ldStVx_of_st_mem_footprint i hfoot
    cases h
    exact ⟨s.readV x, rfl⟩
  · exact ⟨b, exec_setSt i s t b hfoot h⟩

end Sys2Proof.Machine
end

