-- ==== Sys2Proof/Proofs/Exceptions.lean ====
section
/-! The obligations on faults and on the host operations (spec/60_exceptions.md): each fault has exactly its cause, what
each host operation does, and that every allowed sequence of them runs and keeps the invariant. -/

namespace Sys2Proof

/-! ## Words that a row of a fault covers -/

theorem eq_encode_call_of_masked {w : Word} (h : w &&& 0xF000 = 0x2000) : w = encode (.call (opNNN w)) := by
  have hgroup : opGroup w = 0x2 := extractLsb'_of_masked h 12 4 (by decide)
  rw [encode, ← hgroup, formatNNN_fields]

theorem eq_formatXNN_of_masked {w : Word} {o : BitVec 4} {nn : Byte}
    (h : w &&& formatXNN 0xF 0 0xFF = formatXNN o 0 nn) : w = formatXNN o (opX w) nn := by
  have hgroup : opGroup w = o :=
    (extractLsb'_of_masked h 12 4 (by decide)).trans (opGroup_formatXNN o 0 nn)
  have hnn : opNN w = nn := (extractLsb'_of_masked h 0 8 (by decide)).trans (opNN_formatXNN o 0 nn)
  rw [← hgroup, ← hnn, formatXNN_fields]

end Sys2Proof

namespace Sys2Proof.Machine

/-! ## Faults and their causes -/

/-- An executing cycle whose word is an instruction's raises, with that word, what the instruction raises. -/
theorem executingCycle_raises_of_encode {s : State} {i : Instr} {code : Fault} (hword : s.fetchWord = encode i)
    (hexec : exec i s.advance = s.advance.raise code (encode i)) :
    executingCycle s = s.advance.raise code s.fetchWord := by
  rw [executingCycle_of_decode (hword ▸ decode_encode i), hexec, hword]

/-- When a cause holds, an executing cycle raises its fault with the fetched word (R201 to R204). -/
theorem Causes.executingCycle_raises {s : State} {code : Fault} (h : Causes s code) :
    executingCycle s = s.advance.raise code s.fetchWord := by
  cases code with
  | stackUnderflow =>
    obtain ⟨hword, hempty⟩ := h
    exact executingCycle_raises_of_encode (i := .ret) hword (exec_ret_of_stack_nil hempty)
  | stackOverflow =>
    obtain ⟨hmask, hfull⟩ := h
    exact executingCycle_raises_of_encode (eq_encode_call_of_masked hmask) (exec_call_of_full _ hfull)
  | unknownOpcode =>
    obtain ⟨hrec, hstrict⟩ := h
    obtain ⟨e, he⟩ := exists_decode_error_of_not_wordRecognized hrec
    rw [executingCycle_of_decode_error he, unknownOpcode_advance_of_strict _ hstrict, raise_advance]
  | keyIndexOutOfRange =>
    obtain ⟨hmask, hindex, hpolicy⟩ := h
    have htest : keyTest s.params.keyIndexPolicy s.keys (s.readV (opX s.fetchWord)) = .outOfRange :=
      hpolicy ▸ keyTest_fault s.keys _ hindex
    rcases hmask with hskp | hsknp
    · exact executingCycle_raises_of_encode (i := .skp _) (eq_formatXNN_of_masked hskp) (exec_skp_of_outOfRange htest)
    · exact executingCycle_raises_of_encode (i := .sknp _) (eq_formatXNN_of_masked hsknp)
        (exec_sknp_of_outOfRange htest)
  | invalidRom => exact h.elim

/-- Settles O19: a cycle that sets the latch raised a fault whose cause holds, and a cause that holds is raised. -/
theorem faultsHaveExactlyTheirCauses : Obligations.FaultsHaveExactlyTheirCauses := by
  intro s t code hf hw h
  rw [step_executing s hf hw] at h
  constructor
  · rintro ⟨r, hr, rfl⟩
    have hset : t.fault ≠ s.fault := by rw [hf, hr]; exact Option.some_ne_none r
    obtain ⟨code, hcause, hraise⟩ := (executingCycle_faults_or_keeps_latch s t h).resolve_right hset
    rw [raise_advance] at hraise
    cases hraise
    cases hr
    exact hcause
  · intro hcause
    rw [hcause.executingCycle_raises, raise_advance] at h
    cases h
    exact ⟨_, rfl, rfl⟩

/-! ## The timers, the keys and the pixels -/

section
variable (s : State)

theorem writes_tickTimers : Writes [.dt, .st] s (tickTimers s) := by simp [writes_iff]

theorem writes_setPressed (k : KeyIdx) : Writes [.keys] s (setPressed k s) := by simp [writes_iff]

theorem writes_setReleased (k : KeyIdx) : Writes [.keys] s (setReleased k s) := by simp [writes_iff]

/-- The bit of a key in the vector of that key alone. -/
theorem getLsbD_twoPow_key (k : KeyIdx) (j : Nat) : (BitVec.twoPow 16 k.toNat).getLsbD j = decide (j = k.toNat) := by
  have hk : k.toNat < 16 := k.isLt
  simp [BitVec.getLsbD_twoPow, hk, eq_comm]

theorem getLsbD_keys_setPressed (k : KeyIdx) (j : Nat) :
    (setPressed k s).keys.getLsbD j = (decide (j = k.toNat) || s.keys.getLsbD j) := by
  rw [setPressed_keys, BitVec.getLsbD_or, getLsbD_twoPow_key, Bool.or_comm]

theorem getLsbD_keys_setReleased (k : KeyIdx) (j : Nat) (hj : j < 16) :
    (setReleased k s).keys.getLsbD j = (!decide (j = k.toNat) && s.keys.getLsbD j) := by
  rw [setReleased_keys, BitVec.getLsbD_and, BitVec.getLsbD_not, getLsbD_twoPow_key, decide_eq_true hj, Bool.true_and,
    Bool.and_comm]

theorem setPressed_setPressed (k : KeyIdx) : setPressed k (setPressed k s) = setPressed k s := by
  simp only [setPressed, BitVec.or_assoc, BitVec.or_self]

theorem setReleased_setReleased (k : KeyIdx) : setReleased k (setReleased k s) = setReleased k s := by
  simp only [setReleased, BitVec.and_assoc, BitVec.and_self]

end

/-- Settles O52: both timers by the law of `tick`. -/
theorem tickTimersCountsDownToZero : Obligations.TickTimersCountsDownToZero :=
  fun s => ⟨toNat_tick s.dt, toNat_tick s.st, (writes_tickTimers s).onlyChanges (by decide)⟩

/-- Settles O53, bit by bit; the idempotence is that of OR and AND. -/
theorem keyMutatorsSetOneKey : Obligations.KeyMutatorsSetOneKey :=
  fun s k => ⟨fun j _ => getLsbD_keys_setPressed s k j, getLsbD_keys_setReleased s k, setPressed_setPressed s k,
    setReleased_setReleased s k, (writes_setPressed s k).onlyChanges (by decide),
    (writes_setReleased s k).onlyChanges (by decide)⟩

/-- Settles O54: reducing a coordinate twice is reducing it once. -/
theorem getReadsThePixelModuloTheGrid : Obligations.GetReadsThePixelModuloTheGrid :=
  fun s x y => ⟨rfl, pixel_congr s.fb _ _ _ _ (Nat.mod_mod x 64).symm (Nat.mod_mod y 32).symm, rfl⟩

/-! ## The invariant under the host operations -/

section
variable {s : State}

/-- No cause of a fault reads the timers or the keys, so a latched state meets the invariant whatever they become. -/
theorem Inv.with_timers_keys (h : Inv s) (dt st : Byte) (keys : BitVec 16) :
    Inv { s with dt := dt, st := st, keys := keys } where
  mem_canonical := h.mem_canonical
  stack_bounded := h.stack_bounded
  latch_precise := h.latch_precise

/-- Stores from outside a cycle may change the word at pc, so they keep the invariant while no latch is set. -/
theorem Inv.storeBytes (h : Inv s) (hf : s.fault = none) (a : Addr) (bs : List Byte) : Inv (s.storeBytes a bs) := by
  have hw := s.writes_storeBytes a bs
  have hparams : (s.storeBytes a bs).params = s.params := hw .params (by decide)
  have hstack : (s.storeBytes a bs).stack = s.stack := hw .stack (by decide)
  have hfault : (s.storeBytes a bs).fault = s.fault := hw .fault (by decide)
  refine .of_unlatched ?_ ?_ (hfault.trans hf)
  · rw [hparams]; exact State.storeBytes_wf bs s a h.mem_canonical
  · rw [hparams, hstack]; exact h.stack_bounded

end

/-- Settles O57: a load stores bytes under a clear latch, a cycle keeps the invariant by O11, and the other operations
write at most timers and keys. -/
theorem hostOperationsKeepTheInvariant : Obligations.HostOperationsKeepTheInvariant := by
  intro op s t r hs hf h
  rcases HostOp.apply_cases op s t r h with ⟨bytes, hop, -, rfl, -⟩ | ⟨-, -, -, rfl, -⟩ | ⟨-, hstep, -⟩ | ⟨-, rfl, -⟩ |
    ⟨k, -, rfl, -⟩ | ⟨k, -, rfl, -⟩ | ⟨-, -, -, rfl, -⟩
  · exact ⟨hs.storeBytes (hf bytes hop) _ _, s.writes_storeBytes _ _ .params (by decide)⟩
  · exact ⟨hs, rfl⟩
  · exact ⟨stepKeepsTheInvariant s t hs hstep, (cyclesNeverChangeKeysOrParameters s t hstep).2⟩
  · exact ⟨hs.with_timers_keys _ _ _, tickTimers_params s⟩
  · exact ⟨hs.with_timers_keys _ _ _, setPressed_params s k⟩
  · exact ⟨hs.with_timers_keys _ _ _, setReleased_params s k⟩
  · exact ⟨hs, rfl⟩

/-! ## Reachable states -/

/-- An operation after which `load_rom` may still come is neither a load nor a cycle, and leaves the latch. -/
theorem HostOp.apply_fault {op : HostOp} {s t : State} {r : HostResult} (hopen : op.keepsLoadOpen = true)
    (h : op.apply s = .next (t, r)) : t.fault = s.fault := by
  cases op with
  | loadRom | cycle => cases hopen
  | tickTimers | setPressed | setReleased | get => cases h; rfl

/-- Settles O12 by induction over the operations: a clear latch while `load_rom` may come is what its step needs. -/
theorem reachableStatesMeetTheInvariant : Obligations.ReachableStatesMeetTheInvariant := by
  intro p loadOpen s hreach
  induction hreach with
  | construct => exact ⟨.construct p, rfl, fun _ => rfl⟩
  | operation b s t op r _ hallowed h ih =>
    obtain ⟨hs, hparams, hlatch⟩ := ih
    have hload (bytes : List Byte) (hop : op = .loadRom bytes) : s.fault = none := by
      subst hop; exact hlatch hallowed
    obtain ⟨ht, hkept⟩ := hostOperationsKeepTheInvariant op s t r hs hload h
    refine ⟨ht, hkept.trans hparams, fun hopen => ?_⟩
    obtain ⟨hb, hkeeps⟩ := Bool.and_eq_true_iff.mp hopen
    exact (HostOp.apply_fault hkeeps h).trans (hlatch hb)

/-! ## Runs of host operations -/

/-- No host operation stops: each answers a state and a result (R219). -/
theorem HostOp.apply_next (op : HostOp) (s : State) : ∃ t r, op.apply s = .next (t, r) := by
  cases op with
  | loadRom bytes => simp only [HostOp.apply]; split <;> exact ⟨_, _, rfl⟩
  | cycle =>
    obtain ⟨t, ht⟩ := everyStepHasANextState s
    exact ⟨t, t.cycleResult.toHost, by simp only [HostOp.apply, ht]⟩
  | tickTimers | setPressed | setReleased | get => exact ⟨_, _, rfl⟩

theorem runHost_cons {op : HostOp} {ops : List HostOp} {s t u : State} {r : HostResult} {rs : List HostResult}
    (h : op.apply s = .next (t, r)) (hrest : runHost ops t = .next (u, rs)) :
    runHost (op :: ops) s = .next (u, r :: rs) := by
  simp only [runHost, h, hrest]

/-- An allowed sequence runs to its end from every reachable state, not only from construction. -/
theorem Reachable.runHost_next {p : Params} (ops : List HostOp) {loadOpen : Bool} {s : State}
    (hs : Reachable p loadOpen s) (hallowed : hostSequenceAllowed loadOpen ops = true) :
    ∃ t rs loadOpen', runHost ops s = .next (t, rs) ∧ rs.length = ops.length ∧ Reachable p loadOpen' t := by
  induction ops generalizing loadOpen s with
  | nil => exact ⟨s, [], loadOpen, rfl, rfl, hs⟩
  | cons op ops ih =>
    obtain ⟨hop, hops⟩ := Bool.and_eq_true_iff.mp hallowed
    obtain ⟨t, r, happly⟩ := op.apply_next s
    obtain ⟨u, rs, loadOpen', hrun, hlen, hu⟩ := ih (.operation loadOpen s t op r hs hop happly) hops
    exact ⟨u, r :: rs, loadOpen', runHost_cons happly hrun, congrArg (· + 1) hlen, hu⟩

/-- Settles O56: construction is reachable, with `load_rom` still to come. -/
theorem everyAllowedHostSequenceRuns : Obligations.EveryAllowedHostSequenceRuns :=
  fun _ ops => Reachable.runHost_next ops .construct

end Sys2Proof.Machine
end

