-- ==== Sys2Proof/Proofs/LoadRom.lean ====
section
/-! The obligation on `load_rom` (spec/70_reset_and_hazards.md R243): its two answers, and stores that end within
memory. -/

namespace Sys2Proof.Machine

/-! ## The two answers of `load_rom` -/

section
variable {bytes : List Byte} (s : State)

theorem HostOp.apply_loadRom_of_fits (h : bytes.length ≤ Config.romMax) :
    (HostOp.loadRom bytes).apply s = .next (s.storeBytes Config.romBase bytes, .ok) := by
  simp only [HostOp.apply, Machine.loadRom, romFits, decide_eq_true h, if_true]

theorem HostOp.apply_loadRom_of_too_long (h : Config.romMax < bytes.length) :
    (HostOp.loadRom bytes).apply s = .next (s, .invalidRom) := by
  simp only [HostOp.apply, Machine.loadRom, romFits, decide_eq_false (Nat.not_le.mpr h), Bool.false_eq_true, if_false]

end

/-! ## Stores that end within memory

They do not wrap, so the bytes stored to are the addresses from `base` up to `base + bs.length`, as numbers. -/

section
variable (s : State) {base a : Addr} {bs : List Byte}

theorem State.memRead_storeBytes_of_mem_range (hfit : base.toNat + bs.length ≤ 4096) {k : Nat} (hk : k < bs.length)
    (ha : a.toNat = base.toNat + k) : (s.storeBytes base bs).memRead a = bs[k] := by
  have hoffset : (a - base).toNat = k := by
    rw [BitVec.toNat_sub]
    omega
  rw [State.memRead_storeBytes bs s base a (by omega), dif_pos (by omega)]
  simp only [hoffset]

theorem State.memRead_storeBytes_of_not_mem_range (hfit : base.toNat + bs.length ≤ 4096)
    (ha : a.toNat < base.toNat ∨ base.toNat + bs.length ≤ a.toNat) :
    (s.storeBytes base bs).memRead a = s.memRead a := by
  have hoffset : bs.length ≤ (a - base).toNat := by
    rw [BitVec.toNat_sub]
    omega
  rw [State.memRead_storeBytes bs s base a (by omega), dif_neg (Nat.not_lt.mpr hoffset)]

end

/-- Settles O55: an image that fits ends within memory, `ROM_BASE + ROM_MAX` being its size, so no store wraps. -/
theorem loadRomLoadsOrRejects : Obligations.LoadRomLoadsOrRejects := by
  intro s bytes
  refine ⟨HostOp.apply_loadRom_of_too_long s, fun hfits => ?_⟩
  have hend : Config.romBase.toNat + bytes.length ≤ 4096 := Nat.add_le_add_left hfits 0x200
  refine ⟨_, HostOp.apply_loadRom_of_fits s hfits, fun k hk => ?_,
    fun _ => s.memRead_storeBytes_of_not_mem_range hend,
    (s.writes_storeBytes Config.romBase bytes).onlyChanges (by decide)⟩
  have haddr : (0x200 + BitVec.ofNat 12 k : Addr).toNat = 0x200 + k := by
    simp only [BitVec.toNat_add, BitVec.toNat_ofNat, BitVec.reduceToNat]
    omega
  exact s.memRead_storeBytes_of_mem_range hend hk haddr

end Sys2Proof.Machine
end
